-- ==== Sys2Proof/Word.lean ====
section
/-! DEFINITION. The Word and the register number (00_scope.md R6, R11). -/

namespace Sys2Proof

/-- A Word: "32-bit unsigned integer; the universal unit of memory, register, and instruction
storage" (R11). Arithmetic on it is modulo 2^32. -/
abbrev Word := BitVec 32

/-- The number of a general register, 0 to 31 (10_state.md R20). -/
abbrev RegIdx := Fin 32

end Sys2Proof
end

