-- ==== Sys2Proof/Machine/Flags.lean ====
section
/-! DEFINITION. The hardware has no flags, condition codes or predicates (10_state.md R28), and ADD,
SUB and ADDI record no carry or overflow (41_alu.md R142): there is no flag computation. What stands
here are the two comparisons its instructions make. -/

namespace Sys2Proof.Machine

/-- `signed32(w)`: w if w < 2^31, else w - 2^32 (00_scope.md R12, 41_alu.md R134; the two's
complement reading is PRESUMED, log 8). -/
def signed32 (w : Word) : Int := if w.toNat < 2 ^ 31 then (w.toNat : Int) else (w.toNat : Int) - 2 ^ 32

/-- SLT's comparison, "of the true signed values" (41_alu.md R134). -/
def signedLess (a b : Word) : Bool := decide (signed32 a < signed32 b)

/-- BNE's comparison, "of all 32 bits of the two Words" (42_control.md R151). -/
def wordsDiffer (a b : Word) : Bool := decide (a ≠ b)

end Sys2Proof.Machine
end

