-- ==== Sys2Proof/Config.lean ====
section
/-! DEFINITION. The implementation parameters of 00_scope.md R6. XLEN and NREGS are fixed (Word,
RegIdx). No behaviour of this hardware is a free value (93_implementation_defined.md, after U25),
so there is no opaque constant here. -/

namespace Sys2Proof

/-- `BNE_OPCODE`: exactly one of the two legal values (30_encoding.md R92). -/
inductive BneOpcode where
  /-- The decode stage recognises 0x05 as BNE (the spec's default); 0x04 is a no-op. -/
  | op05
  /-- The decode stage recognises 0x04 as BNE; 0x05 is a no-op. -/
  | op04
  deriving DecidableEq, Repr

/-- The 6-bit opcode the parameter stands for (R92). -/
def BneOpcode.value : BneOpcode → Nat
  | .op05 => 0x05
  | .op04 => 0x04

/-- The parameters a step reads. No step changes them (R6). -/
structure Config where
  /-- `MEM_WORDS`, the number of Words of the memory bus. -/
  memWords : Nat
  /-- `BNE_OPCODE`. -/
  bneOpcode : BneOpcode
  deriving DecidableEq, Repr

/-- The spec's defaults: 1024 Words and opcode 0x05 (R6). -/
def Config.default : Config := { memWords := 1024, bneOpcode := .op05 }

/-- `MEM_BYTES`, the exclusive upper bound of valid byte addresses (R6). -/
def Config.memBytes (c : Config) : Nat := 4 * c.memWords

/-- What the host chooses before a run: the configuration, `START_PC`, and `IMAGE`, a map from word
index to a number (R6; 70_reset_and_hazards.md R222, R224). The numbers are integers because the
load operation must refuse one that is not a Word. -/
structure LaunchParams where
  config : Config
  startPc : Word
  image : List (Nat × Int)
  deriving DecidableEq, Repr

/-- The launch of every vector of 95_test_vectors.md: the defaults and a given image. -/
def LaunchParams.ofImage (image : List (Nat × Int)) : LaunchParams :=
  { config := Config.default, startPc := 0, image := image }

end Sys2Proof
end

