-- ==== Sys2Proof/Machine/State.lean ====
section
/-! DEFINITION. The state of the machine (10_state.md) as plain data, its reset value (R34), and the
reasons a step can stop. -/

namespace Sys2Proof.Machine

/-- Memory: the Words that are not 0, as pairs of word index and Word, indices strictly rising. An
index that is not listed reads as 0, the reset contents (10_state.md R30, R34). The cell is the
Word: R47 of 20_memory.md forbids a byte view (log 2). -/
abbrev Memory := List (Nat × Word)

/-- The cache controller's mapping from word-aligned byte address to Word, addresses strictly rising.
An address that is listed is "present" (10_state.md R31; log 22). -/
abbrev CacheMap := List (Nat × Word)

/-- Why the run ended (10_state.md R26). -/
inductive StopCause where
  /-- The core is running. -/
  | none
  /-- HALT was executed (44_system.md R180). -/
  | halt
  /-- The guard found the pc outside memory (40_fetch_step.md R111). -/
  | pcOutOfRange
  /-- LW or SW addressed outside memory (60_exceptions.md R202). -/
  | accessFault
  deriving DecidableEq, Repr

/-- One successful operation on the interface between cache controller and bus (20_memory.md R58). -/
inductive BusEvent where
  /-- A read of word index `i`. -/
  | rd (i : Nat)
  /-- A write of `v` to word index `i`. -/
  | wr (i : Nat) (v : Word)
  deriving DecidableEq, Repr

end Sys2Proof.Machine

namespace Sys2Proof.Machine

structure State where
  /-- The parameters, which no step changes (00_scope.md R6; the model's own field, log 1). -/
  cfg : Config
  /-- x[0] to x[31]; register 0 is an ordinary register (R20, R21). -/
  regs : Vector Word 32
  /-- The byte address of the next instruction to fetch (R24). -/
  pc : Word
  /-- R25. -/
  running : Bool
  /-- R26. -/
  stopCause : StopCause
  /-- R30. -/
  mem : Memory
  /-- The cache controller's flag `enabled` (R31). -/
  cacheEnabled : Bool
  /-- The cache controller's mapping `cmap` (R31). -/
  cmap : CacheMap
  /-- The history of bus events, oldest first; no rule reads it (R35, 20_memory.md R58; the model's
  own field, log 5). -/
  busEvents : List BusEvent
  deriving DecidableEq, Repr

/-- Reset of a machine built with the parameters `c` (R34, 70_reset_and_hazards.md R220). -/
def State.resetWith (c : Config) : State where
  cfg := c
  regs := Vector.replicate 32 0
  pc := 0
  running := true
  stopCause := .none
  mem := []
  cacheEnabled := false
  cmap := []
  busEvents := []

/-- The machine right after reset, with the spec's default parameters (R34, R220). -/
def State.reset : State := State.resetWith Config.default

/-- Why the machine stops with a fault. -/
inductive Fault where
  /-- The access fault of 60_exceptions.md R202, raised by LW and SW when the effective address `ea`
  is not in range. `left` is the state the core is left in, which is final: running false,
  stop_cause access_fault, everything else as after the instruction's own fetch and pc increment.
  Safe: the spec says a model should treat this as its fault outcome (log 4). -/
  | accessFault (ea : Nat) (left : State)
  /-- Raised by `step` in a state with running false: "a state with running = false has no step"
  (40_fetch_step.md R110, 70_reset_and_hazards.md R231). The machine is stuck for good. Safe
  (log 3). -/
  | notRunning
  deriving DecidableEq, Repr

/-- Why the model gives no meaning. -/
inductive Refusal where
  /-- Raised by an arm of `exec` for an instruction that has no meaning yet; no arm does. Safe. -/
  | notModelled (mnemonic : String)
  deriving DecidableEq, Repr

/-- What a step or a meaning answers. -/
abbrev Result := Host.Outcome State Fault Refusal

end Sys2Proof.Machine
end

