-- ==== Sys2Proof/Machine/Ops.lean ====
section
/-! DEFINITION. The named operations over registers, memory, bus, cache controller and run state
(10_state.md, 20_memory.md, 60_exceptions.md R202). Addresses are integers of any size
(00_scope.md R12, "Widths"). -/

namespace Sys2Proof.Machine

/-! Field updates, one per piece of state a rule writes. -/

/-- `x[r]` (00_scope.md R12). No register is special (10_state.md R21, R22). -/
def State.reg (s : State) (r : RegIdx) : Word := s.regs[r]

/-- `x[r] <- v` (00_scope.md R12). -/
def State.setReg (s : State) (r : RegIdx) (v : Word) : State :=
  { s with regs := s.regs.set r.val v r.isLt }

/-- `pc <- v` (00_scope.md R12). -/
def State.setPc (s : State) (v : Word) : State := { s with pc := v }

/-- `running <- false`, and the rule that clears it records its cause (10_state.md R25, R26). -/
def State.stop (s : State) (c : StopCause) : State := { s with running := false, stopCause := c }

/-- Write the memory array. -/
def State.setMem (s : State) (m : Memory) : State := { s with mem := m }

/-- `enabled <- b` (20_memory.md R55). -/
def State.setCacheEnabled (s : State) (b : Bool) : State := { s with cacheEnabled := b }

/-- Write the cache controller's mapping. -/
def State.setCmap (s : State) (m : CacheMap) : State := { s with cmap := m }

/-- Record one bus event (20_memory.md R58). -/
def State.logEvent (s : State) (e : BusEvent) : State :=
  { s with busEvents := s.busEvents ++ [e] }

/-! Maps from number to Word, kept as lists of pairs with keys strictly rising. -/

/-- The value at key `k`, if `k` is present. -/
def lookupKey : List (Nat × Word) → Nat → Option Word
  | [], _ => none
  | (k', v) :: l, k => if k = k' then some v else lookupKey l k

/-- Bind `k` to `v`, replacing what was bound to it. -/
def insertKey : List (Nat × Word) → Nat → Word → List (Nat × Word)
  | [], k, v => [(k, v)]
  | (k', v') :: l, k, v =>
    if k < k' then (k, v) :: (k', v') :: l
    else if k = k' then (k, v) :: l
    else (k', v') :: insertKey l k v

/-- Remove `k`. -/
def eraseKey : List (Nat × Word) → Nat → List (Nat × Word)
  | [], _ => []
  | (k', v') :: l, k => if k = k' then eraseKey l k else (k', v') :: eraseKey l k

/-- The keys rise strictly. -/
def sortedKeys : List (Nat × Word) → Bool
  | [] => true
  | p :: l => l.all (fun q => decide (p.1 < q.1)) && sortedKeys l

/-! The memory array (10_state.md R30). -/

/-- `mem[i]`; an unlisted Word reads as 0 (10_state.md R34). -/
def Memory.read (m : Memory) (i : Nat) : Word := (lookupKey m i).getD 0

/-- `mem[i] <- v`, "replaces all 32 bits of the cell" (20_memory.md R45). Writing 0 unlists the
Word, so that equal memories are equal lists. -/
def Memory.write (m : Memory) (i : Nat) (v : Word) : Memory :=
  if v = 0 then eraseKey m i else insertKey m i v

/-- The canonical form: indices strictly rising and no listed Word equal to what an unlisted one
reads as. -/
def Memory.wf (m : Memory) : Bool := sortedKeys m && m.all (fun p => decide (p.2 ≠ 0))

/-- The Word that answers byte address `addr`: cell `addr div 4` (20_memory.md R40, R44). -/
def State.wordAt (s : State) (addr : Nat) : Word := s.mem.read (addr / 4)

/-! The memory bus (20_memory.md R42 to R45). -/

/-- The bus's one failure (20_memory.md R43). -/
inductive BusError where
  /-- OutOfRangeAccess: the index is outside the array. The CPU takes the access fault on it
  (60_exceptions.md R202). Safe. -/
  | outOfRangeAccess
  deriving DecidableEq, Repr

/-- `in_range(addr)`: `(addr div 4) < MEM_WORDS` (R43). -/
def inRange (c : Config) (addr : Nat) : Bool := decide (addr / 4 < c.memWords)

/-- `BusRead(addr)` (R42); a success is the bus event rd (R58). -/
def busRead (addr : Nat) (s : State) : Except BusError (Word × State) :=
  if inRange s.cfg addr then .ok (s.mem.read (addr / 4), s.logEvent (.rd (addr / 4)))
  else .error .outOfRangeAccess

/-- `BusWrite(addr, v)` (R45); a success is the bus event wr (R58). -/
def busWrite (addr : Nat) (v : Word) (s : State) : Except BusError State :=
  if inRange s.cfg addr then
    .ok ((s.setMem (s.mem.write (addr / 4) v)).logEvent (.wr (addr / 4) v))
  else .error .outOfRangeAccess

/-! The write-through cache controller (20_memory.md R48 to R57). -/

/-- `tag(addr)`, the address with its two low bits cleared (R49). -/
def tag (addr : Nat) : Nat := 4 * (addr / 4)

/-- The Word a read of `addr` hits, if it is a hit: enabled and the tag present (R51). -/
def cachedWord (addr : Nat) (s : State) : Option Word :=
  if s.cacheEnabled then lookupKey s.cmap (tag addr) else none

/-- "if enabled: cmap[tag(addr)] <- v" (R52, R54, R57). -/
def cacheFill (addr : Nat) (v : Word) (s : State) : State :=
  if s.cacheEnabled then s.setCmap (insertKey s.cmap (tag addr) v) else s

/-- `CacheRead(addr)` (R52, R53). -/
def cacheRead (addr : Nat) (s : State) : Except BusError (Word × State) :=
  match cachedWord addr s with
  | some v => .ok (v, s)
  | none =>
    match busRead addr s with
    | .error e => .error e
    | .ok (v, s') => .ok (v, cacheFill addr v s')

/-- `CacheWrite(addr, v)`: the range check comes before any update (R54, R56, R57). -/
def cacheWrite (addr : Nat) (v : Word) (s : State) : Except BusError State :=
  if inRange s.cfg addr then busWrite addr v (cacheFill addr v s)
  else .error .outOfRangeAccess

/-- `CacheSetState(code)` (R55). -/
def cacheSetState (code : BitVec 5) (s : State) : State :=
  if code.toNat = 0 then (s.setCacheEnabled false).setCmap []
  else if code.toNat = 1 then s.setCacheEnabled true
  else if code.toNat = 2 then s.setCmap []
  else s

/-! The one exception. -/

/-- `raise AccessFault(ea)`: running and stop_cause are written, nothing else is, control goes
nowhere and nothing returns (60_exceptions.md R202, R206, R207). The outcome is the model's fault,
with the state the core is left in. -/
def takeAccessFault (ea : Nat) (s : State) : Result :=
  .fault (.accessFault ea (s.stop .accessFault))

end Sys2Proof.Machine
end

