-- ==== Sys2Proof/Machine/Operands.lean ====
section
/-! DEFINITION. The operand forms: the zero-extended immediate, the one addressing mode, the branch
and the jump target (30_encoding.md R88, R89; 43_loadstore.md R165, R166; 42_control.md R150). -/

namespace Sys2Proof.Machine

/-- `zext_16(imm16)`: "never sign-extended" (30_encoding.md R88). -/
def zext16 (imm : BitVec 16) : Nat := imm.toNat

/-- `zext_26(target26)` (30_encoding.md R89). -/
def zext26 (target : BitVec 26) : Nat := target.toNat

/-- `ea = x[rs] + zext_16(imm16)`, "computed as an integer without reduction"
(43_loadstore.md R166). -/
def effectiveAddress (s : State) (rs : RegIdx) (imm : BitVec 16) : Nat :=
  (s.reg rs).toNat + zext16 imm

/-- `(pc + 4 * zext_16(imm16)) mod 2^32`, where `pc` is already incremented
(42_control.md R151). -/
def branchTarget (pc : Word) (imm : BitVec 16) : Word :=
  BitVec.ofNat 32 (pc.toNat + 4 * zext16 imm)

/-- `zext_26(target26) << 2`; no bit of pc enters it (30_encoding.md R89, 42_control.md R154). -/
def jumpTarget (target : BitVec 26) : Word := BitVec.ofNat 32 (zext26 target * 2 ^ 2)

end Sys2Proof.Machine
end

