-- ==== Sys2Proof/Machine/Alu.lean ====
section
/-! DEFINITION. alu_basic and its instructions (41_alu.md): ADD, SUB, SLT, ADDI. None writes a flag,
touches memory, cache or pc, or can stop the core (R131). -/

namespace Sys2Proof.Machine

/-- `add(a, b) = (a + b) mod 2^32` (R130). -/
def aluAdd (a b : Word) : Word := a + b

/-- `sub(a, b) = (a - b) mod 2^32` (R130). -/
def aluSub (a b : Word) : Word := a - b

/-- `slt(a, b) = 1 if signed32(a) < signed32(b) else 0` (R130). -/
def aluSlt (a b : Word) : Word := if signedLess a b then 1 else 0

/-- ADD (R132). -/
def execAdd (rs rt rd : RegIdx) (s : State) : Result :=
  .next (s.setReg rd (aluAdd (s.reg rs) (s.reg rt)))

/-- SUB (R133). -/
def execSub (rs rt rd : RegIdx) (s : State) : Result :=
  .next (s.setReg rd (aluSub (s.reg rs) (s.reg rt)))

/-- SLT (R134). -/
def execSlt (rs rt rd : RegIdx) (s : State) : Result :=
  .next (s.setReg rd (aluSlt (s.reg rs) (s.reg rt)))

/-- ADDI (R135). -/
def execAddi (rs rt : RegIdx) (imm : BitVec 16) (s : State) : Result :=
  .next (s.setReg rt (aluAdd (s.reg rs) (BitVec.ofNat 32 (zext16 imm))))

end Sys2Proof.Machine
end

