-- ==== Sys2Proof/Machine/Control.lean ====
section
/-! DEFINITION. Control transfer (42_control.md): BNE, J, JAL. On entry pc is pc_fetch + 4. There is
no delay slot (40_fetch_step.md R119). -/

namespace Sys2Proof.Machine

/-- The register JAL writes (10_state.md R22). -/
def linkReg : RegIdx := 31

/-- BNE (R151). -/
def execBne (rs rt : RegIdx) (imm : BitVec 16) (s : State) : Result :=
  if wordsDiffer (s.reg rs) (s.reg rt) then .next (s.setPc (branchTarget s.pc imm)) else .next s

/-- J (R153). -/
def execJ (target : BitVec 26) (s : State) : Result := .next (s.setPc (jumpTarget target))

/-- JAL (R155). -/
def execJal (target : BitVec 26) (s : State) : Result :=
  .next ((s.setReg linkReg s.pc).setPc (jumpTarget target))

end Sys2Proof.Machine
end

