-- ==== Sys2Proof/Machine/LoadStore.lean ====
section
/-! DEFINITION. Loads and stores (43_loadstore.md): LW, SW. -/

namespace Sys2Proof.Machine

/-- LW (R167, R168): the range test first, then CacheRead. -/
def execLw (rs rt : RegIdx) (imm : BitVec 16) (s : State) : Result :=
  let ea := effectiveAddress s rs imm
  if inRange s.cfg ea then
    match cacheRead ea s with
    | .ok (v, s') => .next (s'.setReg rt v)
    | .error _ => takeAccessFault ea s
  else takeAccessFault ea s

/-- SW (R169, R170): the range test first, then CacheWrite. -/
def execSw (rs rt : RegIdx) (imm : BitVec 16) (s : State) : Result :=
  let ea := effectiveAddress s rs imm
  if inRange s.cfg ea then
    match cacheWrite ea (s.reg rt) s with
    | .ok s' => .next s'
    | .error _ => takeAccessFault ea s
  else takeAccessFault ea s

end Sys2Proof.Machine
end

