-- ==== Sys2Proof/Syntax.lean ====
section
/-! DEFINITION. The eleven instructions, one constructor per row of spec/opcode_table.json
(30_encoding.md R90). The operands stand in the order of the spec's pseudocode, and each field has
its width in its type, so that every term of `Instr` is an instruction. A no-op Word (R94, R95) has
no mnemonic (R105) and is no `Instr`. -/

namespace Sys2Proof

inductive Instr where
  /-- ADD(rs, rt, rd), 41_alu.md R132. -/
  | add (rs rt rd : RegIdx)
  /-- SUB(rs, rt, rd), 41_alu.md R133. -/
  | sub (rs rt rd : RegIdx)
  /-- SLT(rs, rt, rd), 41_alu.md R134. -/
  | slt (rs rt rd : RegIdx)
  /-- ADDI(rs, rt, imm16), 41_alu.md R135. -/
  | addi (rs rt : RegIdx) (imm : BitVec 16)
  /-- BNE(rs, rt, imm16), 42_control.md R151. -/
  | bne (rs rt : RegIdx) (imm : BitVec 16)
  /-- J(target26), 42_control.md R153. -/
  | j (target : BitVec 26)
  /-- JAL(target26), 42_control.md R155. -/
  | jal (target : BitVec 26)
  /-- LW(rs, rt, imm16), 43_loadstore.md R167. -/
  | lw (rs rt : RegIdx) (imm : BitVec 16)
  /-- SW(rs, rt, imm16), 43_loadstore.md R169. -/
  | sw (rs rt : RegIdx) (imm : BitVec 16)
  /-- CACHE(code5), 44_system.md R184. -/
  | cache (code : BitVec 5)
  /-- HALT, 44_system.md R180. -/
  | halt
  deriving DecidableEq, Repr

end Sys2Proof
end

