-- ==== Sys2Proof/Decode.lean ====
section
/-! DEFINITION. The decode stage, total on all Words (30_encoding.md R93), and after it the encoder
of R104. -/

namespace Sys2Proof

/-- `w[hi:lo]`, "the unsigned integer made of bits hi down to lo of w, inclusive"
(00_scope.md R11). -/
def bits (w : Word) (hi lo : Nat) : Nat := w.toNat / 2 ^ lo % 2 ^ (hi - lo + 1)

/-- The rs field, bits [25:21] (R82, R83). -/
def rsField (w : Word) : RegIdx := Fin.ofNat 32 (bits w 25 21)

/-- The rt field, bits [20:16] (R82, R83). -/
def rtField (w : Word) : RegIdx := Fin.ofNat 32 (bits w 20 16)

/-- The rd field, bits [15:11] (R82). -/
def rdField (w : Word) : RegIdx := Fin.ofNat 32 (bits w 15 11)

/-- The imm16 field, bits [15:0] (R83). -/
def imm16Field (w : Word) : BitVec 16 := BitVec.ofNat 16 (bits w 15 0)

/-- The target26 field, bits [25:0] (R84). -/
def target26Field (w : Word) : BitVec 26 := BitVec.ofNat 26 (bits w 25 0)

/-- The code5 field, bits [4:0] (R85). -/
def code5Field (w : Word) : BitVec 5 := BitVec.ofNat 5 (bits w 4 0)

/-- The two kinds of Word that are no instruction. Each executes as a no-op, never as an error
(R94, R95; 60_exceptions.md R209). -/
inductive NoOp where
  /-- Opcode 0 with a funct other than 0x20, 0x22 and 0x2A (41_alu.md R140). -/
  | unknownFunct (funct : Nat)
  /-- An opcode that is none of the nine recognised ones (44_system.md R190). -/
  | unknownOpcode (opcode : Nat)
  deriving DecidableEq, Repr

/-- The second level of decoding, for opcode 0 only: "Dispatch on funct" (R91, R93). -/
def decodeFunct (w : Word) : Except NoOp Instr :=
  let f := bits w 5 0
  if f = 0x20 then .ok (.add (rsField w) (rtField w) (rdField w))
  else if f = 0x22 then .ok (.sub (rsField w) (rtField w) (rdField w))
  else if f = 0x2A then .ok (.slt (rsField w) (rtField w) (rdField w))
  else .error (.unknownFunct f)

/-- The decode algorithm of R93. `bne` is the parameter `BNE_OPCODE` (R92). -/
def decode (bne : BneOpcode) (w : Word) : Except NoOp Instr :=
  let op := bits w 31 26
  if op = 0x00 then decodeFunct w
  else if op = 0x08 then .ok (.addi (rsField w) (rtField w) (imm16Field w))
  else if op = bne.value then .ok (.bne (rsField w) (rtField w) (imm16Field w))
  else if op = 0x02 then .ok (.j (target26Field w))
  else if op = 0x03 then .ok (.jal (target26Field w))
  else if op = 0x23 then .ok (.lw (rsField w) (rtField w) (imm16Field w))
  else if op = 0x2B then .ok (.sw (rsField w) (rtField w) (imm16Field w))
  else if op = 0x3F then .ok .halt
  else if op = 0x3A then .ok (.cache (code5Field w))
  else .error (.unknownOpcode op)

/-- `enc_R` of R104, opcode 0, every ignored bit 0. -/
def encR (funct : Nat) (rd rs rt : RegIdx) : Word :=
  BitVec.ofNat 32 (rs.val * 2 ^ 21 + rt.val * 2 ^ 16 + rd.val * 2 ^ 11 + funct)

/-- `enc_I` of R104. -/
def encI (op : Nat) (rt rs : RegIdx) (imm : BitVec 16) : Word :=
  BitVec.ofNat 32 (op * 2 ^ 26 + rs.val * 2 ^ 21 + rt.val * 2 ^ 16 + imm.toNat)

/-- `enc_J` of R104. -/
def encJ (op : Nat) (target : BitVec 26) : Word :=
  BitVec.ofNat 32 (op * 2 ^ 26 + target.toNat)

/-- `enc_C` of R104. -/
def encC (code : BitVec 5) : Word := BitVec.ofNat 32 (0x3A * 2 ^ 26 + code.toNat)

/-- `enc_H` of R104. -/
def encH : Word := BitVec.ofNat 32 (0x3F * 2 ^ 26)

/-- The canonical Word of an instruction (R90, R104). -/
def encode (bne : BneOpcode) : Instr → Word
  | .add rs rt rd => encR 0x20 rd rs rt
  | .sub rs rt rd => encR 0x22 rd rs rt
  | .slt rs rt rd => encR 0x2A rd rs rt
  | .addi rs rt imm => encI 0x08 rt rs imm
  | .bne rs rt imm => encI bne.value rt rs imm
  | .j target => encJ 0x02 target
  | .jal target => encJ 0x03 target
  | .lw rs rt imm => encI 0x23 rt rs imm
  | .sw rs rt imm => encI 0x2B rt rs imm
  | .cache code => encC code
  | .halt => encH

/-- The Word of an instruction whose bits are `w`, numbered as spec/opcode_table.json numbers them;
an instruction is one Word (R80), so nothing is laid out in bytes and the bits above `nbits`
are 0. -/
def tableWord (nbits w : Nat) : Word := BitVec.ofNat 32 (w % 2 ^ nbits)

/-- What the decoder reads from that Word under the default `BNE_OPCODE` of the table (0x05); none
for a no-op Word. -/
def decodeTableWord (nbits w : Nat) : Option Instr :=
  match decode Config.default.bneOpcode (tableWord nbits w) with
  | .ok i => some i
  | .error _ => none

end Sys2Proof
end

