-- ==== Sys2Proof/Machine/System.lean ====
section
/-! DEFINITION. System instructions (44_system.md): CACHE, HALT; and the no-op taken for a Word that
is no instruction (R190, 41_alu.md R140). -/

namespace Sys2Proof.Machine

/-- CACHE (R184). -/
def execCache (code : BitVec 5) (s : State) : Result := .next (cacheSetState code s)

/-- HALT (R180). -/
def execHalt (s : State) : Result := .next (s.stop .halt)

/-- The unknown-funct no-op: nothing (41_alu.md R140). -/
def execUnknownFunct (s : State) : Result := .next s

/-- The unknown-opcode no-op: nothing (R190). -/
def execUnknownOpcode (s : State) : Result := .next s

/-- The no-op of a Word that is no instruction (30_encoding.md R94, R95). -/
def execNoOp (n : NoOp) (s : State) : Result :=
  match n with
  | .unknownFunct _ => execUnknownFunct s
  | .unknownOpcode _ => execUnknownOpcode s

end Sys2Proof.Machine
end

