-- ==== Sys2Proof/Machine/Fetch.lean ====
section
/-! DEFINITION. fetch_unit and the pc range guard (40_fetch_step.md R111 to R113), and the placing of
a Word where the next fetch reads it. -/

namespace Sys2Proof.Machine

/-- The guard's test, `pc < MEM_BYTES` (R111). -/
def pcInRange (s : State) : Bool := decide (s.pc.toNat < s.cfg.memBytes)

/-- What the guard does when the test fails: a graceful stop (R111). -/
def stopOutOfRange (s : State) : State := s.stop .pcOutOfRange

/-- `pc <- (pc_fetch + 4) mod 2^32` (R113). -/
def incrementPc (s : State) : State := s.setPc (s.pc + 4)

/-- The fetch, an ordinary cache read at pc, and the pc increment right after it (R112, R113). -/
def fetch (s : State) : Except BusError (Word × State) :=
  match cacheRead s.pc.toNat s with
  | .error e => .error e
  | .ok (w, s') => .ok (w, incrementPc s')

/-- Store `w` at the memory Word the next fetch reads, and in the cache entry of that Word if there
is one, so that cache and memory agree (log 6). -/
def placeAtPc (w : Word) (s : State) : State :=
  let s' := s.setMem (s.mem.write (s.pc.toNat / 4) w)
  match lookupKey s.cmap (tag s.pc.toNat) with
  | some _ => s'.setCmap (insertKey s.cmap (tag s.pc.toNat) w)
  | none => s'

end Sys2Proof.Machine
end

