-- ==== Sys2Proof/Machine/Step.lean ====
section
/-! DEFINITION. One step (40_fetch_step.md R110): the guard, the fetch, the pc increment, decode and
execute. -/

namespace Sys2Proof.Machine

/-- `execute(decode(instr))` on the state after the fetch and the increment (R114). -/
def execWord (w : Word) (s : State) : Host.Outcome State Fault Refusal :=
  match decode s.cfg.bneOpcode w with
  | .ok i => exec i s
  | .error n => execNoOp n s

/-- The step of R110. The fault arm of the fetch cannot be reached (R115; log 23). -/
def step (s : State) : Host.Outcome State Fault Refusal :=
  if s.running then
    if pcInRange s then
      match fetch s with
      | .ok (w, s') => execWord w s'
      | .error _ => takeAccessFault s.pc.toNat s
    else .next (stopOutOfRange s)
  else .fault .notRunning

/-- `s` with the instruction whose bits are `w` stored where the next fetch reads (log 6). -/
def State.withFetchWord (s : State) (nbits w : Nat) : State := placeAtPc (tableWord nbits w) s

end Sys2Proof.Machine
end

