-- ==== Sys2Proof/Machine/Assembler.lean ====
section
/-! DEFINITION. The assembler's mapping from a line to a Word (30_encoding.md R100 to R105), which the
spec keeps as the notation of its test programs (00_scope.md R4). It binds no hardware. A line is
taken after its text has been split into a mnemonic and operands: the text itself is the excluded
loader's. -/

namespace Sys2Proof.Machine

/-- The eleven mnemonics, "the whole language" (R100, R105). -/
inductive Mnemonic where
  | ADD | ADDI | SUB | SLT | BNE | J | JAL | LW | SW | CACHE | HALT
  deriving DecidableEq, Repr

/-- An operand: a register name `R<n>` or a literal integer (R101). -/
inductive Operand where
  | reg (n : Nat)
  | lit (z : Int)
  deriving DecidableEq, Repr

/-- A line whose operands do not have the shape of its mnemonic: the loader's affair (R106). -/
inductive LineError where
  | malformedInputLine
  deriving DecidableEq, Repr

/-- The number of a register name, masked to 5 bits: `R35` is 3 (R101). -/
def regNumber (n : Nat) : RegIdx := Fin.ofNat 32 n

/-- A literal reduced modulo 2^w for a field of w bits (R102). -/
def literal (w : Nat) (z : Int) : BitVec w := BitVec.ofInt w z

/-- The instruction of a line, in the operand orders of R103. -/
def assembleInstr : Mnemonic → List Operand → Except LineError Instr
  | .ADD, [.reg d, .reg s, .reg t] => .ok (.add (regNumber s) (regNumber t) (regNumber d))
  | .SUB, [.reg d, .reg s, .reg t] => .ok (.sub (regNumber s) (regNumber t) (regNumber d))
  | .SLT, [.reg d, .reg s, .reg t] => .ok (.slt (regNumber s) (regNumber t) (regNumber d))
  | .ADDI, [.reg t, .reg s, .lit z] => .ok (.addi (regNumber s) (regNumber t) (literal 16 z))
  | .BNE, [.reg s, .reg t, .lit z] => .ok (.bne (regNumber s) (regNumber t) (literal 16 z))
  | .J, [.lit z] => .ok (.j (literal 26 z))
  | .JAL, [.lit z] => .ok (.jal (literal 26 z))
  | .LW, [.reg t, .reg s, .lit z] => .ok (.lw (regNumber s) (regNumber t) (literal 16 z))
  | .SW, [.reg t, .reg s, .lit z] => .ok (.sw (regNumber s) (regNumber t) (literal 16 z))
  | .CACHE, [.lit z] => .ok (.cache (literal 5 z))
  | .HALT, [] => .ok .halt
  | _, _ => .error .malformedInputLine

/-- The Word of a line (R100, R104). -/
def assemble (bne : BneOpcode) (m : Mnemonic) (ops : List Operand) : Except LineError Word :=
  match assembleInstr m ops with
  | .ok i => .ok (encode bne i)
  | .error e => .error e

end Sys2Proof.Machine
end

