-- ==== Sys2Proof/WellFormed.lean ====
section
/-! DEFINITION. What a launch must satisfy (70_reset_and_hazards.md R223), check by check. An
instruction needs no check: `Instr` carries the width of every field in its type. -/

namespace Sys2Proof

/-- The legal values of `MEM_WORDS`, "any integer 1 to 2^30" (00_scope.md R6). `BNE_OPCODE` is legal
by its type. -/
def Config.wf (c : Config) : Bool := decide (1 ≤ c.memWords) && decide (c.memWords ≤ 2 ^ 30)

/-- Why a launch is refused: no run starts (R224; R6 for `MEM_WORDS` and `START_PC`;
93_implementation_defined.md U19, U20). -/
inductive LaunchRefusal where
  /-- `MEM_WORDS` is not in 1 to 2^30. Safe. -/
  | illegalMemWords
  /-- `START_PC` is not a multiple of 4. Safe. -/
  | misalignedStartPc
  /-- The image names an index at or beyond `MEM_WORDS`. Safe. -/
  | imageIndexOutOfRange
  /-- The image holds a value below 0 or above 2^32 - 1. Safe. -/
  | imageValueNotAWord
  /-- The image names one index twice, so it is no map. Safe (DESIGN CHOICE, log 13). -/
  | imageIndexRepeated
  deriving DecidableEq, Repr

/-- "every index of the image is below MEM_WORDS" (R223). -/
def imageInRange (c : Config) (image : List (Nat × Int)) : Bool :=
  image.all fun p => decide (p.1 < c.memWords)

/-- "every value is a Word" (R223). -/
def imageOfWords (image : List (Nat × Int)) : Bool :=
  image.all fun p => decide (0 ≤ p.2) && decide (p.2 < 2 ^ 32)

/-- The image is a partial function: no index stands twice (R224). -/
def imageIsMap (image : List (Nat × Int)) : Bool := decide (image.map Prod.fst).Nodup

/-- All the checks of a launch (R223). -/
def LaunchParams.wf (p : LaunchParams) : Bool :=
  p.config.wf && decide (p.startPc.toNat % 4 = 0) && imageInRange p.config p.image &&
    imageOfWords p.image && imageIsMap p.image

end Sys2Proof
end

