-- ==== Sys2Proof/Machine/Boot.lean ====
section
/-! DEFINITION. What the host does before and after a run (70_reset_and_hazards.md R222 to R229). The
host has no move while the core runs (R230). -/

namespace Sys2Proof.Machine

/-- Store one pair of the image at its raw word index (R224). -/
def loadPair (m : Memory) (p : Nat × Int) : Memory := m.write p.1 (BitVec.ofInt 32 p.2)

/-- `BusLoad(map)`: raw word indices, straight to the array, no bus event; refused as a whole if an
index is at or beyond MEM_WORDS or a value is no Word (R224). A list that names an index twice is no
map and is refused (DESIGN CHOICE, log 13). -/
def busLoad (image : List (Nat × Int)) (s : State) : Except LaunchRefusal State :=
  if imageInRange s.cfg image then
    if imageOfWords image then
      if imageIsMap image then .ok (s.setMem (image.foldl loadPair s.mem))
      else .error .imageIndexRepeated
    else .error .imageValueNotAWord
  else .error .imageIndexOutOfRange

/-- The host's three acts before a run, in R222's order: reset, load, choice of START_PC. The state
they leave is R223's launch state; a full reset is also the only way to run again (R231). -/
def launch (p : LaunchParams) : Except LaunchRefusal State :=
  if p.config.wf then
    if p.startPc.toNat % 4 = 0 then
      match busLoad p.image (State.resetWith p.config) with
      | .ok s => .ok (s.setPc p.startPc)
      | .error e => .error e
    else .error .misalignedStartPc
  else .error .illegalMemWords

/-- What the host may read of a stopped core: not the cache (R229). -/
structure Observation where
  regs : Vector Word 32
  pc : Word
  running : Bool
  stopCause : StopCause
  mem : Memory
  deriving DecidableEq, Repr

/-- The host's reading, possible only "after running has become false" (R229). -/
def observe (s : State) : Option Observation :=
  if s.running then none
  else some { regs := s.regs, pc := s.pc, running := s.running, stopCause := s.stopCause, mem := s.mem }

end Sys2Proof.Machine
end

