-- ==== Sys2Proof/Safety.lean ====
section
/-! DEFINITION. The terms in which the claims are stated: the invariant of a reachable state, what two
states must share for the host to see no difference, the frames, and how a run ends well. -/

namespace Sys2Proof.Machine

/-- What every reachable state satisfies. -/
structure StateInv (s : State) : Prop where
  /-- `MEM_WORDS` is legal (00_scope.md R6). -/
  cfgLegal : s.cfg.wf = true
  /-- Memory is in its canonical form. -/
  memCanonical : s.mem.wf = true
  /-- Only cells of the array are written (10_state.md R30). -/
  memInArray : ∀ p ∈ s.mem, p.1 < s.cfg.memWords
  /-- The mapping is in its canonical form. -/
  cmapSorted : sortedKeys s.cmap = true
  /-- R32 (a) of 10_state.md: disabled implies empty. -/
  disabledEmpty : s.cacheEnabled = false → s.cmap = []
  /-- R32 (b): a present Word is the memory Word. -/
  cacheAgrees : ∀ p ∈ s.cmap, p.2 = s.mem.read (p.1 / 4)
  /-- R32 (c): a present address is a multiple of 4 and in range. -/
  cacheInRange : ∀ p ∈ s.cmap, p.1 % 4 = 0 ∧ inRange s.cfg p.1 = true
  /-- R116 of 40_fetch_step.md. -/
  pcAligned : s.pc.toNat % 4 = 0
  /-- R26 of 10_state.md: the cause is written exactly when running is cleared. -/
  causeMatches : s.running = true ↔ s.stopCause = .none

/-- Two states with the same parameters, registers, pc, running, stop_cause and memory: everything
the host observes (70_reset_and_hazards.md R229); cache and bus events may differ. -/
structure SameVisible (s t : State) : Prop where
  cfg : t.cfg = s.cfg
  regs : t.regs = s.regs
  pc : t.pc = s.pc
  running : t.running = s.running
  stopCause : t.stopCause = s.stopCause
  mem : t.mem = s.mem

/-- Two outcomes of the same kind, whose states the host cannot tell apart. -/
def SameVisibleOutcome : Result → Result → Prop
  | .next s, .next t => SameVisible s t
  | .fault (.accessFault ea s), .fault (.accessFault ea' t) => ea' = ea ∧ SameVisible s t
  | .fault .notRunning, .fault .notRunning => True
  | .refused r, .refused r' => r' = r
  | _, _ => False

/-- Every register but those listed holds what it held. -/
def RegsUnchangedBut (l : List RegIdx) (s t : State) : Prop := ∀ q, q ∉ l → t.reg q = s.reg q

/-- Every byte address reads as before. -/
def MemoryUnchanged (s t : State) : Prop := ∀ a, t.wordAt a = s.wordAt a

/-- The cache controller's flag and mapping are as before. -/
def CacheUnchanged (s t : State) : Prop := t.cacheEnabled = s.cacheEnabled ∧ t.cmap = s.cmap

/-- No bus event occurred. -/
def NoBusEvent (s t : State) : Prop := t.busEvents = s.busEvents

/-- running, stop_cause and the parameters are as before. -/
def RunUnchanged (s t : State) : Prop :=
  t.running = s.running ∧ t.stopCause = s.stopCause ∧ t.cfg = s.cfg

/-- The register an instruction writes, by the table of 10_state.md R23. -/
def destRegs : Instr → List RegIdx
  | .add _ _ rd => [rd]
  | .sub _ _ rd => [rd]
  | .slt _ _ rd => [rd]
  | .addi _ rt _ => [rt]
  | .bne _ _ _ => []
  | .j _ => []
  | .jal _ => [31]
  | .lw _ rt _ => [rt]
  | .sw _ _ _ => []
  | .cache _ => []
  | .halt => []

/-- The state when an instruction begins to execute: `s1` is `s` after the fetch of `w` and the pc
increment. The fetch is a hit (no bus event, mapping as before) or a miss (one rd event, and the Word
inserted if the cache is enabled) (40_fetch_step.md R112, R113; 20_memory.md R52). -/
structure Fetched (s : State) (w : Word) (s1 : State) : Prop where
  pc : s1.pc.toNat = (s.pc.toNat + 4) % 2 ^ 32
  regs : RegsUnchangedBut [] s s1
  mem : MemoryUnchanged s s1
  run : RunUnchanged s s1
  enabled : s1.cacheEnabled = s.cacheEnabled
  hit : ∀ v, cachedWord s.pc.toNat s = some v → w = v ∧ s1.cmap = s.cmap ∧ NoBusEvent s s1
  miss : cachedWord s.pc.toNat s = none →
    w = s.wordAt s.pc.toNat ∧ s1.busEvents = s.busEvents ++ [.rd (s.pc.toNat / 4)] ∧
    (s.cacheEnabled = false → s1.cmap = s.cmap) ∧
    (s.cacheEnabled = true → ∀ k,
      lookupKey s1.cmap k = if k = tag s.pc.toNat then some w else lookupKey s.cmap k)

/-- The instructions `l` one after another by `exec` alone, up to the first that does not answer a
next state. -/
def execAll : List Instr → State → Result
  | [], s => .next s
  | i :: l, s =>
    match exec i s with
    | .next s' => execAll l s'
    | .fault f => .fault f
    | .refused r => .refused r

/-- A correct end of a program, "stop_cause = halt" (60_exceptions.md R202). -/
def EndedByHalt (s : State) : Prop := s.running = false ∧ s.stopCause = .halt

/-- A run of `k` steps is safe if it raises no fault. -/
def SafeRun (k : Nat) (s : State) : Prop := ∃ t, Host.Core.run core k s = .next t

end Sys2Proof.Machine
end

