-- ==== Sys2Proof/Certificates/Slice0/Obligations.lean ====
section
/-! DEFINITION. The statements for the provers. Each docstring names the rule of spec/ it formalises. In
a statement about `exec` the state is the one after the fetch, so its pc is pc_fetch + 4
(00_scope.md R13). -/

open Sys2Proof Sys2Proof.Machine

/-! ## Reset, launch and host -/

/-- Every piece of state at its reset value, for every choice of the parameters (10_state.md R34,
70_reset_and_hazards.md R220). The registers and pc are the source's values; running, stop_cause,
memory and the cache are the spec's own decisions D10, D11, D12, D15; the empty bus history and the
parameters held in State are the model's (log 5, log 1). -/
def Obligations.ResetGivesEveryFieldItsResetValue : Prop :=
  State.reset = State.resetWith { memWords := 1024, bneOpcode := .op05 } ∧
  ∀ c : Config,
    (∀ q, (State.resetWith c).reg q = 0) ∧ (State.resetWith c).pc = 0 ∧
    (State.resetWith c).running = true ∧ (State.resetWith c).stopCause = .none ∧
    (∀ a, (State.resetWith c).wordAt a = 0) ∧ (State.resetWith c).mem.wf = true ∧
    (State.resetWith c).cacheEnabled = false ∧ (State.resetWith c).cmap = [] ∧
    (State.resetWith c).busEvents = [] ∧ (State.resetWith c).cfg = c

/-- The invariant holds at reset (10_state.md R32 "true after reset"). -/
def Obligations.InvariantHoldsAtReset : Prop := StateInv State.reset

/-- A well-formed launch succeeds and gives the launch premises of 70_reset_and_hazards.md R223, with
each image value at its raw word index, that is at byte addresses 4k to 4k + 3 (R224, R225); a launch
that is not well formed is refused and no run starts (the spec's decisions D13, D14, D22; the refusal
of a repeated index is the model's, log 13). -/
def Obligations.LaunchGivesTheLaunchPremises : Prop :=
  (∀ p : LaunchParams, p.wf = true → ∃ s, launch p = .ok s ∧ StateInv s ∧
    (∀ q, s.reg q = 0) ∧ s.pc = p.startPc ∧ s.running = true ∧ s.stopCause = .none ∧
    s.cacheEnabled = false ∧ s.cmap = [] ∧ s.busEvents = [] ∧ s.cfg = p.config ∧
    (∀ k v, (k, v) ∈ p.image → ∀ a, a / 4 = k → ((s.wordAt a).toNat : Int) = v) ∧
    (∀ a, (∀ v, (a / 4, v) ∉ p.image) → s.wordAt a = 0)) ∧
  (∀ p : LaunchParams, p.wf = false → ∃ r, launch p = .error r)

/-- The load operation: refused as a whole on an index outside the array or a value that is no Word,
else each pair is stored at its raw index, straight to the array: no other Word, no other piece of
state and no bus event (70_reset_and_hazards.md R224, the spec's decision D22; the premise that no
index stands twice is the model's reading of "map", log 13). -/
def Obligations.BusLoadStoresAllPairsOrIsRefused : Prop :=
  (∀ image s, (∃ k v, (k, v) ∈ image ∧ (s.cfg.memWords ≤ k ∨ v < 0 ∨ 2 ^ 32 ≤ v)) →
    ∃ r, busLoad image s = .error r) ∧
  (∀ image s, (∀ k v, (k, v) ∈ image → k < s.cfg.memWords ∧ 0 ≤ v ∧ v < 2 ^ 32) →
    (image.map Prod.fst).Nodup →
    ∃ m, busLoad image s = .ok { s with mem := m } ∧
      (∀ k v, (k, v) ∈ image → ((Memory.read m k).toNat : Int) = v) ∧
      (∀ k, (∀ v, (k, v) ∉ image) → Memory.read m k = s.mem.read k))

/-- What the host may observe: nothing while the core runs; of a stopped core the registers, pc,
running, stop_cause and memory, and not the cache (70_reset_and_hazards.md R229). -/
def Obligations.HostObservesOnlyAStoppedCoreAndNotItsCache : Prop :=
  (∀ s, s.running = true → observe s = none) ∧
  (∀ s, s.running = false → ∃ o, observe s = some o ∧ o.regs = s.regs ∧ o.pc = s.pc ∧
    o.running = false ∧ o.stopCause = s.stopCause ∧ ∀ i, o.mem.read i = s.mem.read i) ∧
  (∀ s t, SameVisible s t → observe s = observe t)

/-! ## Encoding -/

/-- 30_encoding.md R90: a Word is the instruction of a row exactly when (Word AND mask) = match, with
the BNE row's match following the parameter (R92). -/
def Obligations.DecodeIsTheOpcodeTable : Prop :=
  ∀ (bne : BneOpcode) (w : Word),
    ((∃ rs rt rd, decode bne w = .ok (.add rs rt rd)) ↔ w &&& 0xFC00003F#32 = 0x00000020#32) ∧
    ((∃ rs rt rd, decode bne w = .ok (.sub rs rt rd)) ↔ w &&& 0xFC00003F#32 = 0x00000022#32) ∧
    ((∃ rs rt rd, decode bne w = .ok (.slt rs rt rd)) ↔ w &&& 0xFC00003F#32 = 0x0000002A#32) ∧
    ((∃ rs rt imm, decode bne w = .ok (.addi rs rt imm)) ↔ w &&& 0xFC000000#32 = 0x20000000#32) ∧
    ((∃ rs rt imm, decode bne w = .ok (.bne rs rt imm)) ↔
      w &&& 0xFC000000#32 = match bne with | .op05 => 0x14000000#32 | .op04 => 0x10000000#32) ∧
    ((∃ target, decode bne w = .ok (.j target)) ↔ w &&& 0xFC000000#32 = 0x08000000#32) ∧
    ((∃ target, decode bne w = .ok (.jal target)) ↔ w &&& 0xFC000000#32 = 0x0C000000#32) ∧
    ((∃ rs rt imm, decode bne w = .ok (.lw rs rt imm)) ↔ w &&& 0xFC000000#32 = 0x8C000000#32) ∧
    ((∃ rs rt imm, decode bne w = .ok (.sw rs rt imm)) ↔ w &&& 0xFC000000#32 = 0xAC000000#32) ∧
    ((∃ code, decode bne w = .ok (.cache code)) ↔ w &&& 0xFC000000#32 = 0xE8000000#32) ∧
    (decode bne w = .ok .halt ↔ w &&& 0xFC000000#32 = 0xFC000000#32)

/-- Decoding the canonical Word of any instruction gives it back, under both values of BNE_OPCODE
(30_encoding.md R93, R104). -/
def Obligations.DecodeOfEncodeIsTheInstruction : Prop :=
  ∀ (bne : BneOpcode) (i : Instr), decode bne (encode bne i) = .ok i

/-- The other direction: a decoded Word is its instruction's canonical Word but for the ignored bits,
[10:6] of format R, [25:5] of CACHE and [25:0] of HALT (30_encoding.md R87, R104). -/
def Obligations.EncodeOfDecodeClearsOnlyTheIgnoredBits : Prop :=
  ∀ (bne : BneOpcode) (w : Word) (i : Instr), decode bne w = .ok i →
    encode bne i = w &&& match i with
      | .add _ _ _ => 0xFFFFF83F#32
      | .sub _ _ _ => 0xFFFFF83F#32
      | .slt _ _ _ => 0xFFFFF83F#32
      | .addi _ _ _ => 0xFFFFFFFF#32
      | .bne _ _ _ => 0xFFFFFFFF#32
      | .j _ => 0xFFFFFFFF#32
      | .jal _ => 0xFFFFFFFF#32
      | .lw _ _ _ => 0xFFFFFFFF#32
      | .sw _ _ _ => 0xFFFFFFFF#32
      | .cache _ => 0xFC00001F#32
      | .halt => 0xFC000000#32

/-- Words of the spec's decode table (95_test_vectors.md V20), one of each family and some that are no
instruction. -/
def Obligations.DecodeReadsTheSpecsWords : Prop :=
  decode .op05 0x00221820#32 = .ok (.add 1 2 3) ∧ decode .op05 0x20010005#32 = .ok (.addi 0 1 5) ∧
  decode .op05 0x14220001#32 = .ok (.bne 1 2 1) ∧ decode .op04 0x10220001#32 = .ok (.bne 1 2 1) ∧
  decode .op05 0x0C000008#32 = .ok (.jal 8) ∧ decode .op05 0xAC240004#32 = .ok (.sw 1 4 4) ∧
  decode .op05 0xE80FFFE1#32 = .ok (.cache 1) ∧ decode .op05 0xFFFFFFFF#32 = .ok .halt ∧
  decode .op05 0x00221824#32 = .error (.unknownFunct 0x24) ∧
  decode .op05 0x10220001#32 = .error (.unknownOpcode 0x04)

/-- The assembler's worked lines (30_encoding.md R101, R104; 95_test_vectors.md V21). -/
def Obligations.AssemblerGivesTheSpecsWords : Prop :=
  assemble .op05 .ADDI [.reg 1, .reg 0, .lit 5] = .ok 0x20010005#32 ∧
  assemble .op05 .ADD [.reg 3, .reg 1, .reg 2] = .ok 0x00221820#32 ∧
  assemble .op05 .ADDI [.reg 1, .reg 0, .lit (-1)] = .ok 0x2001FFFF#32 ∧
  assemble .op05 .ADDI [.reg 35, .reg 0, .lit 5] = .ok 0x20030005#32 ∧
  assemble .op04 .BNE [.reg 1, .reg 2, .lit 1] = .ok 0x10220001#32

/-! ## The step -/

/-- A stopped core, and no other, is stuck under the name notRunning (the model's form of "a state with
`running = false` has no step", 40_fetch_step.md R110; log 3). -/
def Obligations.OnlyAStoppedCoreIsStuck : Prop :=
  ∀ s, step s = .fault .notRunning ↔ s.running = false

/-- The step of 40_fetch_step.md R110: no next state when the core is stopped, the guard, and else the
cache read at pc, the increment and the execution of the decoded Word.
The modulus of the increment is the spec's decision D5 (log 16), the record stop_cause its D15 (log 11). -/
def Obligations.StepIsGuardFetchIncrementExecute : Prop :=
  (∀ s t, s.running = false → step s ≠ .next t) ∧
  (∀ s, s.running = true → ¬ s.pc.toNat < s.cfg.memBytes →
    step s = .next { s with running := false, stopCause := .pcOutOfRange }) ∧
  (∀ s, s.running = true → s.pc.toNat < s.cfg.memBytes →
    ∃ w s', cacheRead s.pc.toNat s = .ok (w, s') ∧
      (∀ i, decode s.cfg.bneOpcode w = .ok i → step s = exec i { s' with pc := s.pc + 4 }) ∧
      (∀ n, decode s.cfg.bneOpcode w = .error n → step s = .next { s' with pc := s.pc + 4 }))

/-- In every state that satisfies the invariant, a step runs the instruction whose Word stands in
memory at pc, on the state after the fetch and the increment (40_fetch_step.md R112 to R114). -/
def Obligations.StepRunsTheInstructionInMemory : Prop :=
  ∀ s, StateInv s → s.running = true → s.pc.toNat < s.cfg.memBytes →
    ∃ s1, Fetched s (s.wordAt s.pc.toNat) s1 ∧
      (∀ i, decode s.cfg.bneOpcode (s.wordAt s.pc.toNat) = .ok i → step s = exec i s1) ∧
      (∀ n, decode s.cfg.bneOpcode (s.wordAt s.pc.toNat) = .error n → step s = .next s1)

/-- The Word placed by withFetchWord is what the very next step runs, and placing it keeps the
invariant (the model's, log 6). -/
def Obligations.PlacedWordIsTheNextOneRun : Prop :=
  ∀ s (w : Word), s.running = true → s.pc.toNat < s.cfg.memBytes →
    (∃ s1, fetch (s.withFetchWord 32 w.toNat) = .ok (w, s1) ∧
      step (s.withFetchWord 32 w.toNat) = execWord w s1) ∧
    (StateInv s → StateInv (s.withFetchWord 32 w.toNat))

/-- 40_fetch_step.md R111: outside memory the step fetches nothing and only clears running; it is a
stop, not a fault.
The record stop_cause is the spec's decision D15 (log 11). -/
def Obligations.PcOutsideMemoryStopsGracefully : Prop :=
  ∀ s, s.running = true → s.cfg.memBytes ≤ s.pc.toNat →
    ∃ t, step s = .next t ∧ t.running = false ∧ t.stopCause = .pcOutOfRange ∧
      RegsUnchangedBut [] s t ∧ t.pc = s.pc ∧ MemoryUnchanged s t ∧ CacheUnchanged s t ∧
      NoBusEvent s t ∧ t.cfg = s.cfg

/-- 41_alu.md R140 (30_encoding.md R95): a Word of opcode 0 with an unknown funct is a no-op. -/
def Obligations.UnknownFunctIsANoOp : Prop :=
  ∀ s w s1, s.running = true → s.pc.toNat < s.cfg.memBytes → fetch s = .ok (w, s1) →
    bits w 31 26 = 0x00 → bits w 5 0 ≠ 0x20 → bits w 5 0 ≠ 0x22 → bits w 5 0 ≠ 0x2A →
    step s = .next s1 ∧ Fetched s w s1

/-- 44_system.md R190 (30_encoding.md R94): a Word of an unrecognised opcode is a no-op. -/
def Obligations.UnknownOpcodeIsANoOp : Prop :=
  ∀ s w s1, s.running = true → s.pc.toNat < s.cfg.memBytes → fetch s = .ok (w, s1) →
    bits w 31 26 ∉ [0x00, 0x02, 0x03, 0x08, s.cfg.bneOpcode.value, 0x23, 0x2B, 0x3A, 0x3F] →
    step s = .next s1 ∧ Fetched s w s1

/-- The table of 40_fetch_step.md R118: pc and running after a step that fetched `w`. -/
def Obligations.PcAfterAStepIsTheTablesValue : Prop :=
  ∀ s w s1 t, s.running = true → s.pc.toNat < s.cfg.memBytes → fetch s = .ok (w, s1) →
    step s = .next t →
    t.pc.toNat = (match decode s.cfg.bneOpcode w with
      | .ok (.bne rs rt imm) =>
        if s.reg rs = s.reg rt then (s.pc.toNat + 4) % 2 ^ 32
        else (s.pc.toNat + 4 + 4 * imm.toNat) % 2 ^ 32
      | .ok (.j target) => 4 * target.toNat
      | .ok (.jal target) => 4 * target.toNat
      | _ => (s.pc.toNat + 4) % 2 ^ 32) ∧
    (t.running = false ↔ decode s.cfg.bneOpcode w = .ok .halt)

/-- 40_fetch_step.md R117 and 42_control.md R152: for MEM_WORDS up to 2^30 - 2^16 no pc arithmetic
wraps, so that only J and JAL can go backward, and no pc they do not write exceeds
MEM_BYTES + 4 * 65535 (the unsigned offset is the spec's decision D2). -/
def Obligations.OnlyJumpsGoBackwardAndPcDoesNotWrap : Prop :=
  ∀ s w s1 t, s.cfg.memWords ≤ 2 ^ 30 - 2 ^ 16 → s.running = true →
    s.pc.toNat < s.cfg.memBytes → s.pc.toNat % 4 = 0 → fetch s = .ok (w, s1) → step s = .next t →
    (∀ target, decode s.cfg.bneOpcode w ≠ .ok (.j target)) →
    (∀ target, decode s.cfg.bneOpcode w ≠ .ok (.jal target)) →
    s1.pc.toNat = s.pc.toNat + 4 ∧ s1.pc.toNat ≤ s.cfg.memBytes ∧
    s.pc.toNat + 4 ≤ t.pc.toNat ∧ t.pc.toNat ≤ s.cfg.memBytes + 4 * 65535

/-- 60_exceptions.md R201: the complete list of events that end a run, and who can cause them. No
step is refused.
The record stop_cause is the spec's decision D15 (log 11). -/
def Obligations.OnlyTheListedEventsEndARun : Prop :=
  (∀ s t, s.running = true → step s = .next t → t.running = false →
    (s.cfg.memBytes ≤ s.pc.toNat ∧ t.stopCause = .pcOutOfRange) ∨
    (∃ w s1, fetch s = .ok (w, s1) ∧ decode s.cfg.bneOpcode w = .ok .halt ∧ t.stopCause = .halt)) ∧
  (∀ s f, s.running = true → step s = .fault f →
    ∃ w s1 rs rt imm left, fetch s = .ok (w, s1) ∧
      (decode s.cfg.bneOpcode w = .ok (.lw rs rt imm) ∨
        decode s.cfg.bneOpcode w = .ok (.sw rs rt imm)) ∧
      s.cfg.memBytes ≤ effectiveAddress s rs imm ∧
      f = .accessFault (effectiveAddress s rs imm) left ∧
      left.running = false ∧ left.stopCause = .accessFault) ∧
  (∀ s r, step s ≠ .refused r) ∧
  (∀ s, s.running = true → s.pc.toNat < s.cfg.memBytes → ∃ w s1, fetch s = .ok (w, s1))

/-- 60_exceptions.md R202, the access fault of a whole step: running and stop_cause are written, pc is
pc_fetch + 4, registers and memory are as before, the cache is as after the instruction's own fetch,
and the state left is final.
The record stop_cause is the spec's decision D15 (log 11); the fault that carries the state
left is the model's form (log 4). -/
def Obligations.AccessFaultLeavesTheStateAfterTheFetch : Prop :=
  ∀ s w s1 rs rt imm, s.running = true → s.pc.toNat < s.cfg.memBytes → fetch s = .ok (w, s1) →
    (decode s.cfg.bneOpcode w = .ok (.lw rs rt imm) ∨
      decode s.cfg.bneOpcode w = .ok (.sw rs rt imm)) →
    s.cfg.memBytes ≤ effectiveAddress s rs imm →
    ∃ left, step s = .fault (.accessFault (effectiveAddress s rs imm) left) ∧
      left.running = false ∧ left.stopCause = .accessFault ∧
      left.pc.toNat = (s.pc.toNat + 4) % 2 ^ 32 ∧ RegsUnchangedBut [] s left ∧
      MemoryUnchanged s left ∧ CacheUnchanged s1 left ∧ NoBusEvent s1 left ∧ left.cfg = s.cfg ∧
      ∀ u, step left ≠ .next u

/-! ## Invariants and whole-machine rules -/

/-- The invariant (canonical memory, 10_state.md R32, pc a multiple of 4 by 40_fetch_step.md R116, the
cause record of R26) is kept by every step, and holds of the state an access fault leaves. -/
def Obligations.EveryStepKeepsTheInvariant : Prop :=
  ∀ s, StateInv s → (∀ t, step s = .next t → StateInv t) ∧
    (∀ ea left, step s = .fault (.accessFault ea left) → StateInv left)

/-- No step changes a parameter (00_scope.md R6). -/
def Obligations.NoStepChangesTheParameters : Prop :=
  ∀ s, (∀ t, step s = .next t → t.cfg = s.cfg) ∧
    (∀ ea left, step s = .fault (.accessFault ea left) → left.cfg = s.cfg)

/-- The register ports of 10_state.md R23: a step that fetched an instruction writes at most its one
destination; a no-op Word and the guard write none. -/
def Obligations.StepWritesOnlyTheDestinationRegister : Prop :=
  (∀ i, (destRegs i).length ≤ 1) ∧
  (∀ s w s1 t, fetch s = .ok (w, s1) → s.running = true → step s = .next t →
    (∀ i, decode s.cfg.bneOpcode w = .ok i → RegsUnchangedBut (destRegs i) s t) ∧
    (∀ n, decode s.cfg.bneOpcode w = .error n → RegsUnchangedBut [] s t)) ∧
  (∀ s t, s.cfg.memBytes ≤ s.pc.toNat → step s = .next t → RegsUnchangedBut [] s t)

/-- 20_memory.md R61 (c) and 10_state.md R30: a memory Word changes only in a step that runs SW, and
only at its effective address. -/
def Obligations.OnlySwChangesMemory : Prop :=
  ∀ s t a, step s = .next t → t.wordAt a ≠ s.wordAt a →
    ∃ w s1 rs rt imm, fetch s = .ok (w, s1) ∧ decode s.cfg.bneOpcode w = .ok (.sw rs rt imm) ∧
      a / 4 = effectiveAddress s rs imm / 4 ∧ t.wordAt a = s.reg rt

/-- 10_state.md R27: the flag `enabled` changes only in a step that runs CACHE with code 0 or 1. -/
def Obligations.OnlyCacheWritesTheEnableFlag : Prop :=
  ∀ s t, step s = .next t → t.cacheEnabled ≠ s.cacheEnabled →
    ∃ w s1 code, fetch s = .ok (w, s1) ∧ decode s.cfg.bneOpcode w = .ok (.cache code) ∧
      (code = 0 ∧ t.cacheEnabled = false ∨ code = 1 ∧ t.cacheEnabled = true)

/-- 40_fetch_step.md R120: a J to its own address loops for ever: after any number of steps the core
runs, pc, the registers and memory are as at the start, and no fault is raised. -/
def Obligations.JumpToItselfLoopsForEver : Prop :=
  ∀ s target, StateInv s → s.running = true → s.pc.toNat < s.cfg.memBytes →
    decode s.cfg.bneOpcode (s.wordAt s.pc.toNat) = .ok (.j target) → s.pc.toNat = 4 * target.toNat →
    ∀ k, SafeRun k s ∧ ∀ t, Host.Core.run core k s = .next t → SameVisible s t

/-! ## The ALU -/

/-- 41_alu.md R132.
The modulus is the spec's decision D3 (log 16). -/
def Obligations.AddWritesTheSum : Prop :=
  (∀ bne w (rs rt rd : RegIdx), bits w 31 26 = 0x00 → bits w 5 0 = 0x20 →
    rs.val = bits w 25 21 → rt.val = bits w 20 16 → rd.val = bits w 15 11 →
    decode bne w = .ok (.add rs rt rd)) ∧
  (∀ rs rt rd s, ∃ t, exec (.add rs rt rd) s = .next t ∧
    (t.reg rd).toNat = ((s.reg rs).toNat + (s.reg rt).toNat) % 2 ^ 32 ∧
    RegsUnchangedBut [rd] s t ∧ t.pc = s.pc ∧ MemoryUnchanged s t ∧ CacheUnchanged s t ∧
    NoBusEvent s t ∧ RunUnchanged s t)

/-- 41_alu.md R133.
The modulus is the spec's decision D3 (log 16). -/
def Obligations.SubWritesTheDifference : Prop :=
  (∀ bne w (rs rt rd : RegIdx), bits w 31 26 = 0x00 → bits w 5 0 = 0x22 →
    rs.val = bits w 25 21 → rt.val = bits w 20 16 → rd.val = bits w 15 11 →
    decode bne w = .ok (.sub rs rt rd)) ∧
  (∀ rs rt rd s, ∃ t, exec (.sub rs rt rd) s = .next t ∧
    ((t.reg rd).toNat : Int) = ((s.reg rs).toNat - (s.reg rt).toNat : Int) % 2 ^ 32 ∧
    RegsUnchangedBut [rd] s t ∧ t.pc = s.pc ∧ MemoryUnchanged s t ∧ CacheUnchanged s t ∧
    NoBusEvent s t ∧ RunUnchanged s t)

/-- 41_alu.md R134. The two's complement reading of a signed Word is the spec's sentence "where
signed32(w) = w if w < 2^31 else w - 2^32", which the spec marks as general knowledge (log 8). -/
def Obligations.SltWritesTheSignedComparison : Prop :=
  (∀ bne w (rs rt rd : RegIdx), bits w 31 26 = 0x00 → bits w 5 0 = 0x2A →
    rs.val = bits w 25 21 → rt.val = bits w 20 16 → rd.val = bits w 15 11 →
    decode bne w = .ok (.slt rs rt rd)) ∧
  (∀ rs rt rd s, ∃ t, exec (.slt rs rt rd) s = .next t ∧
    ((s.reg rs).toInt < (s.reg rt).toInt → t.reg rd = 1) ∧
    ((s.reg rt).toInt ≤ (s.reg rs).toInt → t.reg rd = 0) ∧
    RegsUnchangedBut [rd] s t ∧ t.pc = s.pc ∧ MemoryUnchanged s t ∧ CacheUnchanged s t ∧
    NoBusEvent s t ∧ RunUnchanged s t)

/-- 41_alu.md R135: the immediate is a number from 0 to 65535.
The unsigned immediate and the modulus are the spec's decisions D2
and D3 (log 15, log 16). -/
def Obligations.AddiWritesTheSumWithTheUnsignedImmediate : Prop :=
  (∀ bne w (rs rt : RegIdx) (imm : BitVec 16), bits w 31 26 = 0x08 →
    rs.val = bits w 25 21 → rt.val = bits w 20 16 → imm.toNat = bits w 15 0 →
    decode bne w = .ok (.addi rs rt imm)) ∧
  (∀ rs rt imm s, ∃ t, exec (.addi rs rt imm) s = .next t ∧
    (t.reg rt).toNat = ((s.reg rs).toNat + imm.toNat) % 2 ^ 32 ∧
    RegsUnchangedBut [rt] s t ∧ t.pc = s.pc ∧ MemoryUnchanged s t ∧ CacheUnchanged s t ∧
    NoBusEvent s t ∧ RunUnchanged s t)

/-! ## Control transfer -/

/-- 42_control.md R151, with the guard's stop on a target outside memory and the bound under which
the reduction never acts.
The unsigned offset and the modulus are the spec's decisions D2 and D5
(log 15, log 16). -/
def Obligations.BneBranchesExactlyWhenTheRegistersDiffer : Prop :=
  (∀ bne w (rs rt : RegIdx) (imm : BitVec 16), bits w 31 26 = bne.value →
    rs.val = bits w 25 21 → rt.val = bits w 20 16 → imm.toNat = bits w 15 0 →
    decode bne w = .ok (.bne rs rt imm)) ∧
  (∀ rs rt imm s, ∃ t, exec (.bne rs rt imm) s = .next t ∧
    (s.reg rs ≠ s.reg rt → t.pc.toNat = (s.pc.toNat + 4 * imm.toNat) % 2 ^ 32) ∧
    (s.reg rs = s.reg rt → t.pc = s.pc) ∧
    (s.cfg.memWords ≤ 2 ^ 30 - 2 ^ 16 → s.pc.toNat ≤ s.cfg.memBytes →
      s.reg rs ≠ s.reg rt → t.pc.toNat = s.pc.toNat + 4 * imm.toNat) ∧
    (s.running = true → s.cfg.memBytes ≤ t.pc.toNat →
      step t = .next { t with running := false, stopCause := .pcOutOfRange }) ∧
    RegsUnchangedBut [] s t ∧ MemoryUnchanged s t ∧ CacheUnchanged s t ∧
    NoBusEvent s t ∧ RunUnchanged s t)

/-- 42_control.md R153: the new pc is four times the target field, whatever the old pc; a target
outside memory ends the run at the next guard. -/
def Obligations.JumpGoesToFourTimesTheTarget : Prop :=
  (∀ bne w (target : BitVec 26), bits w 31 26 = 0x02 → target.toNat = bits w 25 0 →
    decode bne w = .ok (.j target)) ∧
  (∀ target s, ∃ t, exec (.j target) s = .next t ∧
    t.pc.toNat = target.toNat * 2 ^ 2 ∧
    (s.running = true → s.cfg.memBytes ≤ t.pc.toNat →
      step t = .next { t with running := false, stopCause := .pcOutOfRange }) ∧
    RegsUnchangedBut [] s t ∧ MemoryUnchanged s t ∧ CacheUnchanged s t ∧
    NoBusEvent s t ∧ RunUnchanged s t)

/-- 42_control.md R155: the link value is the incremented pc, written even when the target is outside
memory. -/
def Obligations.JalLinksTheIncrementedPcAndJumps : Prop :=
  (∀ bne w (target : BitVec 26), bits w 31 26 = 0x03 → target.toNat = bits w 25 0 →
    decode bne w = .ok (.jal target)) ∧
  (∀ target s, ∃ t, exec (.jal target) s = .next t ∧
    t.reg 31 = s.pc ∧ t.pc.toNat = target.toNat * 2 ^ 2 ∧
    RegsUnchangedBut [31] s t ∧ MemoryUnchanged s t ∧ CacheUnchanged s t ∧
    NoBusEvent s t ∧ RunUnchanged s t)

/-! ## Loads, stores and the cache -/

/-- 43_loadstore.md R167: in range, x[rt] is what CacheRead gives (a hit's Word with no bus event, or
the memory Word with one rd event and an insert when enabled); out of range, the access fault. The
base is read before rt is written.
The unsigned offset, the unreduced sum and the cache key are the spec's
decisions D2, D4 and D6 (log 15, log 17, log 18). -/
def Obligations.LwLoadsWhatTheCacheReadGives : Prop :=
  (∀ bne w (rs rt : RegIdx) (imm : BitVec 16), bits w 31 26 = 0x23 →
    rs.val = bits w 25 21 → rt.val = bits w 20 16 → imm.toNat = bits w 15 0 →
    decode bne w = .ok (.lw rs rt imm)) ∧
  (∀ rs rt imm s ea, ea = (s.reg rs).toNat + imm.toNat → ea < s.cfg.memBytes →
    ∃ t, exec (.lw rs rt imm) s = .next t ∧
      (∀ v, cachedWord ea s = some v → t.reg rt = v ∧ t.cmap = s.cmap ∧ NoBusEvent s t) ∧
      (cachedWord ea s = none → t.reg rt = s.wordAt ea ∧
        t.busEvents = s.busEvents ++ [.rd (ea / 4)] ∧
        (s.cacheEnabled = false → t.cmap = s.cmap) ∧
        (s.cacheEnabled = true → ∀ k, lookupKey t.cmap k =
          if k = 4 * (ea / 4) then some (s.wordAt ea) else lookupKey s.cmap k)) ∧
      RegsUnchangedBut [rt] s t ∧ t.pc = s.pc ∧ MemoryUnchanged s t ∧
      t.cacheEnabled = s.cacheEnabled ∧ RunUnchanged s t) ∧
  (∀ rs rt imm s ea, ea = (s.reg rs).toNat + imm.toNat → s.cfg.memBytes ≤ ea →
    exec (.lw rs rt imm) s =
      .fault (.accessFault ea { s with running := false, stopCause := .accessFault }))

/-- 20_memory.md R60 for LW: in every state that satisfies the invariant, an LW in range loads the
memory Word, cache enabled or not. -/
def Obligations.LwLoadsTheMemoryWord : Prop :=
  ∀ (rs rt : RegIdx) (imm : BitVec 16) (s : State), StateInv s →
    effectiveAddress s rs imm < s.cfg.memBytes →
    ∃ t, exec (.lw rs rt imm) s = .next t ∧ t.reg rt = s.wordAt (effectiveAddress s rs imm)

/-- 43_loadstore.md R169: in range, the whole Word at ea div 4 becomes x[rt], with one wr event, the
cache entry of tag(ea) set when enabled, and the stored Word seen by every later read or fetch of it;
out of range, the access fault.
The unsigned offset, the unreduced sum and the cache's part are the
spec's decisions D2, D4 and D6 to D8 (log 15, log 17, log 18). -/
def Obligations.SwStoresTheWord : Prop :=
  (∀ bne w (rs rt : RegIdx) (imm : BitVec 16), bits w 31 26 = 0x2B →
    rs.val = bits w 25 21 → rt.val = bits w 20 16 → imm.toNat = bits w 15 0 →
    decode bne w = .ok (.sw rs rt imm)) ∧
  (∀ s (rs : RegIdx) (imm : BitVec 16),
    effectiveAddress s rs imm = (s.reg rs).toNat + imm.toNat) ∧
  (∀ rs rt imm s ea, ea = effectiveAddress s rs imm → ea < s.cfg.memBytes →
    ∃ t, exec (.sw rs rt imm) s = .next t ∧
      (∀ a, a / 4 = ea / 4 → t.wordAt a = s.reg rt) ∧
      (∀ a, a / 4 ≠ ea / 4 → t.wordAt a = s.wordAt a) ∧
      t.busEvents = s.busEvents ++ [.wr (ea / 4) (s.reg rt)] ∧
      (s.cacheEnabled = false → t.cmap = s.cmap) ∧
      (s.cacheEnabled = true → ∀ k, lookupKey t.cmap k =
        if k = 4 * (ea / 4) then some (s.reg rt) else lookupKey s.cmap k) ∧
      (∀ a, a / 4 = ea / 4 → ∃ u, cacheRead a t = .ok (s.reg rt, u)) ∧
      RegsUnchangedBut [] s t ∧ t.pc = s.pc ∧ t.cacheEnabled = s.cacheEnabled ∧
      RunUnchanged s t) ∧
  (∀ rs rt imm s ea, ea = effectiveAddress s rs imm → s.cfg.memBytes ≤ ea →
    exec (.sw rs rt imm) s =
      .fault (.accessFault ea { s with running := false, stopCause := .accessFault }))

/-- 43_loadstore.md R171: a Word stored by SW is what LW reads at any address of that Word, whatever
the cache state, and with any CACHE instructions between. -/
def Obligations.LoadAfterStoreReturnsTheStoredWord : Prop :=
  ∀ (s : State) (rs rt : RegIdx) (imm : BitVec 16) (rs' rt' : RegIdx) (imm' : BitVec 16)
    (codes : List (BitVec 5)), StateInv s →
    effectiveAddress s rs imm < s.cfg.memBytes →
    effectiveAddress s rs' imm' / 4 = effectiveAddress s rs imm / 4 →
    ∃ t, execAll (.sw rs rt imm :: (codes.map .cache ++ [.lw rs' rt' imm'])) s = .next t ∧
      t.reg rt' = s.reg rt

/-- 20_memory.md R63: a store to the Word at pc is what the very next step fetches and runs, with no
flush or fence, cache enabled or not. -/
def Obligations.StoreIsSeenByTheNextFetch : Prop :=
  ∀ (s t : State) (rs rt : RegIdx) (imm : BitVec 16), exec (.sw rs rt imm) s = .next t →
    s.running = true →
    s.pc.toNat < s.cfg.memBytes → effectiveAddress s rs imm / 4 = s.pc.toNat / 4 →
    ∃ t1, fetch t = .ok (s.reg rt, t1) ∧ step t = execWord (s.reg rt) t1

/-- 20_memory.md R42 and R45: the bus reads and writes the whole Word at addr div 4, and fails
exactly outside the array.
The recorded bus history is the model's (log 5). -/
def Obligations.BusReadsAndWritesTheCell : Prop :=
  (∀ addr s, addr / 4 < s.cfg.memWords → ∃ t, busRead addr s = .ok (s.wordAt addr, t) ∧
    t = { s with busEvents := s.busEvents ++ [.rd (addr / 4)] }) ∧
  (∀ addr v s, addr / 4 < s.cfg.memWords → ∃ t, busWrite addr v s = .ok t ∧
    (∀ a, t.wordAt a = if a / 4 = addr / 4 then v else s.wordAt a) ∧
    t.busEvents = s.busEvents ++ [.wr (addr / 4) v] ∧
    RegsUnchangedBut [] s t ∧ t.pc = s.pc ∧ CacheUnchanged s t ∧ RunUnchanged s t) ∧
  (∀ addr v s, ¬ addr / 4 < s.cfg.memWords →
    busRead addr s = .error .outOfRangeAccess ∧ busWrite addr v s = .error .outOfRangeAccess)

/-- 20_memory.md R52 and R53: CacheRead, hit, miss and failure.
The key is the spec's decision D6 (log 18). -/
def Obligations.CacheReadHitsMissesOrFails : Prop :=
  (∀ addr s v, s.cacheEnabled = true → lookupKey s.cmap (4 * (addr / 4)) = some v →
    cacheRead addr s = .ok (v, s)) ∧
  (∀ addr s, s.cacheEnabled = true → lookupKey s.cmap (4 * (addr / 4)) = none →
    addr / 4 < s.cfg.memWords → ∃ t, cacheRead addr s = .ok (s.wordAt addr, t) ∧
      (∀ k, lookupKey t.cmap k =
        if k = 4 * (addr / 4) then some (s.wordAt addr) else lookupKey s.cmap k) ∧
      t.busEvents = s.busEvents ++ [.rd (addr / 4)] ∧ t.cacheEnabled = true ∧
      RegsUnchangedBut [] s t ∧ t.pc = s.pc ∧ MemoryUnchanged s t ∧ RunUnchanged s t) ∧
  (∀ addr s, s.cacheEnabled = false → addr / 4 < s.cfg.memWords →
    cacheRead addr s =
      .ok (s.wordAt addr, { s with busEvents := s.busEvents ++ [.rd (addr / 4)] })) ∧
  (∀ addr s, (s.cacheEnabled = true → lookupKey s.cmap (4 * (addr / 4)) = none) →
    ¬ addr / 4 < s.cfg.memWords → cacheRead addr s = .error .outOfRangeAccess)

/-- 20_memory.md R54: CacheWrite always writes the bus and, when enabled, the mapping too; out of
range it fails before any update.
Key, allocation and order are the spec's decisions D6 to D8 (log 18). -/
def Obligations.CacheWriteIsWriteThrough : Prop :=
  (∀ addr v s, addr / 4 < s.cfg.memWords → ∃ t, cacheWrite addr v s = .ok t ∧
    (∀ a, t.wordAt a = if a / 4 = addr / 4 then v else s.wordAt a) ∧
    (s.cacheEnabled = true → ∀ k, lookupKey t.cmap k =
      if k = 4 * (addr / 4) then some v else lookupKey s.cmap k) ∧
    (s.cacheEnabled = false → t.cmap = s.cmap) ∧ t.cacheEnabled = s.cacheEnabled ∧
    t.busEvents = s.busEvents ++ [.wr (addr / 4) v] ∧
    RegsUnchangedBut [] s t ∧ t.pc = s.pc ∧ RunUnchanged s t) ∧
  (∀ addr v s, ¬ addr / 4 < s.cfg.memWords → cacheWrite addr v s = .error .outOfRangeAccess)

/-- 20_memory.md R44: the two low bits of an address never matter.
For the cache this rests on the spec's decision D6
(log 18). -/
def Obligations.LowAddressBitsAreIgnored : Prop :=
  ∀ addr v s, inRange s.cfg (4 * (addr / 4)) = inRange s.cfg addr ∧
    busRead (4 * (addr / 4)) s = busRead addr s ∧ busWrite (4 * (addr / 4)) v s = busWrite addr v s ∧
    cacheRead (4 * (addr / 4)) s = cacheRead addr s ∧
    cacheWrite (4 * (addr / 4)) v s = cacheWrite addr v s

/-- 20_memory.md R59: with the cache enabled the first read of an absent address is a miss that
inserts, the second a hit with no bus operation; after code 0 a read is a miss; and a Word written is
the Word read at its address, enabled or not. -/
def Obligations.SecondReadHitsAndDisablingClears : Prop :=
  (∀ addr s, s.cacheEnabled = true → lookupKey s.cmap (4 * (addr / 4)) = none →
    addr / 4 < s.cfg.memWords → ∃ v t, cacheRead addr s = .ok (v, t) ∧
      t.busEvents = s.busEvents ++ [.rd (addr / 4)] ∧ cacheRead addr t = .ok (v, t)) ∧
  (∀ addr s v t, s.cacheEnabled = true → cacheRead addr s = .ok (v, t) →
    cacheRead addr t = .ok (v, t)) ∧
  (∀ addr s, addr / 4 < s.cfg.memWords → (cacheSetState 0 s).cmap = [] ∧
    ∃ v t, cacheRead addr (cacheSetState 0 s) = .ok (v, t) ∧
      t.busEvents = s.busEvents ++ [.rd (addr / 4)]) ∧
  (∀ addr v s t, cacheWrite addr v s = .ok t → ∃ u, cacheRead addr t = .ok (v, u))

/-- 20_memory.md R50: the cache holds at most one entry per memory Word.
That nothing is evicted is its decision D9 (log 18). -/
def Obligations.CacheHoldsAtMostOneEntryPerMemoryWord : Prop :=
  ∀ s, StateInv s → s.cmap.length ≤ s.cfg.memWords

/-- Memories in canonical form that read alike at every index are equal (the model's representation,
log 2). -/
def Obligations.CanonicalMemoriesThatReadAlikeAreEqual : Prop :=
  ∀ m m' : Memory, m.wf = true → m'.wf = true → (∀ i, m.read i = m'.read i) → m = m'

/-- 20_memory.md R60, one step: from two states of the invariant that differ only in cache and bus
events, the step has the same outcome but for cache and bus events. -/
def Obligations.CacheStateDoesNotAffectAStep : Prop :=
  ∀ s t, StateInv s → StateInv t → SameVisible s t → SameVisibleOutcome (step s) (step t)

/-- 20_memory.md R60, any run: the values of registers, memory, pc, running and stop_cause are the
same whatever the cache state was. -/
def Obligations.CacheStateDoesNotAffectARun : Prop :=
  ∀ k s t, StateInv s → StateInv t → SameVisible s t →
    SameVisibleOutcome (Host.Core.run core k s) (Host.Core.run core k t)

/-- 44_system.md R186: whatever its code, a CACHE instruction changes no value any later run
computes: the run goes on as from the state it was executed in. -/
def Obligations.CacheInstructionChangesNoLaterValue : Prop :=
  ∀ k s code, StateInv s → ∃ t, exec (.cache code) s = .next t ∧
    SameVisibleOutcome (Host.Core.run core k s) (Host.Core.run core k t)

/-! ## System instructions -/

/-- 44_system.md R184 and 20_memory.md R55: CACHE by its code; after a clear every read in range is a
miss. -/
def Obligations.CacheSetsTheControllerByItsCode : Prop :=
  (∀ bne w (code : BitVec 5), bits w 31 26 = 0x3A → code.toNat = bits w 4 0 →
    decode bne w = .ok (.cache code)) ∧
  (∀ code s, ∃ t, exec (.cache code) s = .next t ∧
    (code.toNat = 0 → t.cacheEnabled = false ∧ t.cmap = []) ∧
    (code.toNat = 1 → t.cacheEnabled = true ∧ t.cmap = s.cmap) ∧
    (code.toNat = 2 → t.cacheEnabled = s.cacheEnabled ∧ t.cmap = []) ∧
    (3 ≤ code.toNat → t = s) ∧
    (s.cacheEnabled = false → s.cmap = [] → code.toNat = 0 ∨ code.toNat = 2 → t = s) ∧
    (code.toNat = 0 ∨ code.toNat = 2 → ∀ a, a < s.cfg.memBytes →
      ∃ u, cacheRead a t = .ok (s.wordAt a, u) ∧ u.busEvents = s.busEvents ++ [.rd (a / 4)]) ∧
    RegsUnchangedBut [] s t ∧ t.pc = s.pc ∧ MemoryUnchanged s t ∧ NoBusEvent s t ∧
    RunUnchanged s t)

/-- 44_system.md R185: right after a step that ran CACHE 0 or CACHE 2 the mapping is empty, its own
fetch's entry included, and so it is after a CACHE 1 that found the cache disabled. -/
def Obligations.CacheInstructionsOwnFetchComesFirst : Prop :=
  ∀ s code, StateInv s → s.running = true → s.pc.toNat < s.cfg.memBytes →
    decode s.cfg.bneOpcode (s.wordAt s.pc.toNat) = .ok (.cache code) →
    ∃ t, step s = .next t ∧
      (code.toNat = 0 → t.cmap = [] ∧ t.cacheEnabled = false) ∧
      (code.toNat = 2 → t.cmap = [] ∧ t.cacheEnabled = s.cacheEnabled) ∧
      (code.toNat = 1 → s.cacheEnabled = false → t.cmap = [] ∧ t.cacheEnabled = true) ∧
      (3 ≤ code.toNat → s.cacheEnabled = true →
        lookupKey t.cmap s.pc.toNat = some (s.wordAt s.pc.toNat))

/-- 44_system.md R180: HALT, whatever its ignored bits, stops the core and changes nothing else.
The record stop_cause is the spec's decision D15 (log 11). -/
def Obligations.HaltStopsTheCore : Prop :=
  (∀ bne w, bits w 31 26 = 0x3F → decode bne w = .ok .halt) ∧
  (∀ s, ∃ t, exec .halt s = .next t ∧ EndedByHalt t ∧ (∀ u, step t ≠ .next u) ∧
    RegsUnchangedBut [] s t ∧ t.pc = s.pc ∧ MemoryUnchanged s t ∧ CacheUnchanged s t ∧
    NoBusEvent s t ∧ t.cfg = s.cfg)
end

