-- ==== Sys2Proof/Laws/Decode.lean ====
section
/-! SUPPORT. The fields of the encoder's Words (30_encoding.md R82 to R86, R104). -/

namespace Sys2Proof

theorem encR_toNat (f : Nat) (rd rs rt : RegIdx) (hf : f < 64) :
    (encR f rd rs rt).toNat = rs.val * 2 ^ 21 + rt.val * 2 ^ 16 + rd.val * 2 ^ 11 + f := by
  simp only [encR, BitVec.toNat_ofNat]; omega

theorem encI_toNat (op : Nat) (rt rs : RegIdx) (imm : BitVec 16) (ho : op < 64) :
    (encI op rt rs imm).toNat = op * 2 ^ 26 + rs.val * 2 ^ 21 + rt.val * 2 ^ 16 + imm.toNat := by
  have := imm.isLt
  simp only [encI, BitVec.toNat_ofNat]; omega

theorem encJ_toNat (op : Nat) (target : BitVec 26) (ho : op < 64) :
    (encJ op target).toNat = op * 2 ^ 26 + target.toNat := by
  have := target.isLt
  simp only [encJ, BitVec.toNat_ofNat]; omega

theorem encC_toNat (code : BitVec 5) : (encC code).toNat = 0x3A * 2 ^ 26 + code.toNat := by
  have := code.isLt
  simp only [encC, BitVec.toNat_ofNat]; omega

theorem encH_toNat : encH.toNat = 0x3F * 2 ^ 26 := rfl

theorem encR_fields (f : Nat) (rd rs rt : RegIdx) (hf : f < 64) :
    bits (encR f rd rs rt) 31 26 = 0 ∧ bits (encR f rd rs rt) 5 0 = f ∧
      rsField (encR f rd rs rt) = rs ∧ rtField (encR f rd rs rt) = rt ∧
      rdField (encR f rd rs rt) = rd := by
  have := rs.isLt; have := rt.isLt; have := rd.isLt
  simp only [bits, rsField, rtField, rdField, encR_toNat f rd rs rt hf, Fin.ext_iff, Fin.val_ofNat]
  refine ⟨?_, ?_, ?_, ?_, ?_⟩ <;> omega

theorem encI_fields (op : Nat) (rt rs : RegIdx) (imm : BitVec 16) (ho : op < 64) :
    bits (encI op rt rs imm) 31 26 = op ∧ rsField (encI op rt rs imm) = rs ∧
      rtField (encI op rt rs imm) = rt ∧ imm16Field (encI op rt rs imm) = imm := by
  have := rs.isLt; have := rt.isLt; have := imm.isLt
  simp only [bits, rsField, rtField, imm16Field, encI_toNat op rt rs imm ho, Fin.ext_iff,
    Fin.val_ofNat, BitVec.toNat_eq, BitVec.toNat_ofNat]
  refine ⟨?_, ?_, ?_, ?_⟩ <;> omega

theorem encJ_fields (op : Nat) (target : BitVec 26) (ho : op < 64) :
    bits (encJ op target) 31 26 = op ∧ target26Field (encJ op target) = target := by
  have := target.isLt
  simp only [bits, target26Field, encJ_toNat op target ho, BitVec.toNat_eq, BitVec.toNat_ofNat]
  refine ⟨?_, ?_⟩ <;> omega

theorem encC_fields (code : BitVec 5) :
    bits (encC code) 31 26 = 0x3A ∧ code5Field (encC code) = code := by
  have := code.isLt
  simp only [bits, code5Field, encC_toNat, BitVec.toNat_eq, BitVec.toNat_ofNat]
  refine ⟨?_, ?_⟩ <;> omega

theorem encH_fields : bits encH 31 26 = 0x3F := by decide

theorem BneOpcode.value_lt (b : BneOpcode) : b.value < 64 := by cases b <;> decide

/-- All that a decoded Word can be (30_encoding.md R93). -/
theorem decode_cases {b : BneOpcode} {w : Word} {i : Instr} (h : decode b w = .ok i) :
  (bits w 31 26 = 0 ∧ bits w 5 0 = 0x20 ∧ i = .add (rsField w) (rtField w) (rdField w)) ∨
  (bits w 31 26 = 0 ∧ bits w 5 0 = 0x22 ∧ i = .sub (rsField w) (rtField w) (rdField w)) ∨
  (bits w 31 26 = 0 ∧ bits w 5 0 = 0x2A ∧ i = .slt (rsField w) (rtField w) (rdField w)) ∨
  (bits w 31 26 = 8 ∧ i = .addi (rsField w) (rtField w) (imm16Field w)) ∨
  (bits w 31 26 = b.value ∧ i = .bne (rsField w) (rtField w) (imm16Field w)) ∨
  (bits w 31 26 = 2 ∧ i = .j (target26Field w)) ∨
  (bits w 31 26 = 3 ∧ i = .jal (target26Field w)) ∨
  (bits w 31 26 = 0x23 ∧ i = .lw (rsField w) (rtField w) (imm16Field w)) ∨
  (bits w 31 26 = 0x2B ∧ i = .sw (rsField w) (rtField w) (imm16Field w)) ∨
  (bits w 31 26 = 0x3A ∧ i = .cache (code5Field w)) ∨
  (bits w 31 26 = 0x3F ∧ i = .halt) := by
  simp only [decode, decodeFunct] at h
  generalize bits w 31 26 = op at *
  generalize bits w 5 0 = f at *
  repeat' split at h
  all_goals simp_all

/-- The nine opcodes of R94 and the three functs of R95 decode to an instruction, and nothing else. -/
theorem decode_error_cases {b : BneOpcode} {w : Word} {n : NoOp} (h : decode b w = .error n) :
    (bits w 31 26 = 0 ∧ bits w 5 0 ∉ [0x20, 0x22, 0x2A] ∧ n = .unknownFunct (bits w 5 0)) ∨
    (bits w 31 26 ∉ [0x00, 0x02, 0x03, 0x08, b.value, 0x23, 0x2B, 0x3A, 0x3F] ∧
      n = .unknownOpcode (bits w 31 26)) := by
  simp only [decode, decodeFunct] at h
  generalize bits w 31 26 = op at *
  generalize bits w 5 0 = f at *
  repeat' split at h
  all_goals simp_all

/-! The masks of the opcode map as arithmetic on the number of a Word. -/

theorem and_mask26 (w : Word) : (w &&& 0xFC000000#32).toNat =
    w.toNat / 2 ^ 26 * 2 ^ 26 := by
  have := w.isLt
  have e : w &&& 0xFC000000#32 = (w >>> 26) <<< 26 := by
    apply BitVec.eq_of_getLsbD_eq
    intro i hi
    simp only [BitVec.getLsbD_and, BitVec.getLsbD_shiftLeft, BitVec.getLsbD_ushiftRight]
    have : (0xFC000000#32 : Word).getLsbD i = (decide (26 ≤ i) && decide (i < 32)) := by
      revert i; decide
    rw [this]
    by_cases h26 : 26 ≤ i
    · simp [h26, hi, show ¬ i < 26 by omega, show 26 + (i - 26) = i by omega]
    · simp [h26, show i < 26 by omega]
  rw [e]
  simp only [BitVec.toNat_shiftLeft, BitVec.toNat_ushiftRight, Nat.shiftLeft_eq,
    Nat.shiftRight_eq_div_pow]
  omega

theorem and_maskR (w : Word) : (w &&& 0xFC00003F#32).toNat =
    w.toNat / 2 ^ 26 * 2 ^ 26 + w.toNat % 2 ^ 6 := by
  have := w.isLt
  have e : w &&& 0xFC00003F#32 = (w &&& 0xFC000000#32) + (w &&& 0x3F#32) := by
    rw [BitVec.add_eq_or_of_and_eq_zero]
    · rw [← BitVec.and_or_distrib_left]; rfl
    · apply BitVec.eq_of_getLsbD_eq
      intro i hi
      have : ((0xFC000000#32 : Word).getLsbD i && (0x3F#32 : Word).getLsbD i) = false := by
        revert i; decide
      simp only [BitVec.getLsbD_and, BitVec.getLsbD_zero]
      revert this
      cases w.getLsbD i <;> simp
  rw [e, BitVec.toNat_add, and_mask26]
  have : (w &&& 0x3F#32).toNat = w.toNat % 2 ^ 6 := by
    rw [BitVec.toNat_and]; exact Nat.and_two_pow_sub_one_eq_mod _ 6
  rw [this]; omega

theorem and_canonR (w : Word) : (w &&& 0xFFFFF83F#32).toNat =
    w.toNat / 2 ^ 11 * 2 ^ 11 + w.toNat % 2 ^ 6 := by
  have := w.isLt
  have e : w &&& 0xFFFFF83F#32 = ((w >>> 11) <<< 11) + (w &&& 0x3F#32) := by
    rw [BitVec.add_eq_or_of_and_eq_zero]
    · apply BitVec.eq_of_getLsbD_eq
      intro i hi
      have h1 : (0xFFFFF83F#32 : Word).getLsbD i =
          ((decide (11 ≤ i) && decide (i < 32)) || (0x3F#32 : Word).getLsbD i) := by
        revert i; decide
      simp only [BitVec.getLsbD_and, BitVec.getLsbD_or, BitVec.getLsbD_shiftLeft,
        BitVec.getLsbD_ushiftRight, h1]
      by_cases h26 : 11 ≤ i
      · simp [h26, hi, show ¬ i < 11 by omega, show 11 + (i - 11) = i by omega]
        exact fun h _ => h
      · simp [h26, show i < 11 by omega]
    · apply BitVec.eq_of_getLsbD_eq
      intro i hi
      have h1 : (!decide (i < 11) && (0x3F#32 : Word).getLsbD i) = false := by
        revert i; decide
      simp only [BitVec.getLsbD_and, BitVec.getLsbD_zero, BitVec.getLsbD_shiftLeft,
        BitVec.getLsbD_ushiftRight]
      revert h1
      cases decide (i < 11) <;> cases (0x3F#32 : Word).getLsbD i <;> simp
  have : (w &&& 0x3F#32).toNat = w.toNat % 2 ^ 6 := by
    rw [BitVec.toNat_and]; exact Nat.and_two_pow_sub_one_eq_mod _ 6
  rw [e, BitVec.toNat_add, this]
  simp only [BitVec.toNat_shiftLeft, BitVec.toNat_ushiftRight, Nat.shiftLeft_eq,
    Nat.shiftRight_eq_div_pow]
  omega

theorem and_canonC (w : Word) : (w &&& 0xFC00001F#32).toNat =
    w.toNat / 2 ^ 26 * 2 ^ 26 + w.toNat % 2 ^ 5 := by
  have := w.isLt
  have e : w &&& 0xFC00001F#32 = (w &&& 0xFC000000#32) + (w &&& 0x1F#32) := by
    rw [BitVec.add_eq_or_of_and_eq_zero]
    · rw [← BitVec.and_or_distrib_left]; rfl
    · apply BitVec.eq_of_getLsbD_eq
      intro i hi
      have : ((0xFC000000#32 : Word).getLsbD i && (0x1F : Word).getLsbD i) = false := by
        revert i; decide
      simp only [BitVec.getLsbD_and, BitVec.getLsbD_zero]
      revert this
      cases w.getLsbD i <;> simp
  rw [e, BitVec.toNat_add, and_mask26]
  have : (w &&& 0x1F#32).toNat = w.toNat % 2 ^ 5 := by
    rw [BitVec.toNat_and]; exact Nat.and_two_pow_sub_one_eq_mod _ 5
  rw [this]; omega

end Sys2Proof
end

