-- ==== Sys2Proof/Laws/Memory.lean ====
section
/-! SUPPORT. The laws of key lists and of memory: read after write, and that every operation keeps
the canonical form. -/

namespace Sys2Proof.Machine

@[simp] theorem lookupKey_nil (k : Nat) : lookupKey [] k = none := rfl

theorem lookupKey_insertKey (l : List (Nat × Word)) (k j : Nat) (v : Word) :
    lookupKey (insertKey l k v) j = if j = k then some v else lookupKey l j := by
  induction l with
  | nil => simp [insertKey, lookupKey]
  | cons p l ih =>
    obtain ⟨k', v'⟩ := p
    simp only [insertKey]
    split
    · simp [lookupKey]
    · split
      · subst_vars; simp only [lookupKey]; split <;> simp_all
      · simp only [lookupKey, ih]; split <;> split <;> simp_all

theorem lookupKey_eraseKey (l : List (Nat × Word)) (k j : Nat) :
    lookupKey (eraseKey l k) j = if j = k then none else lookupKey l j := by
  induction l with
  | nil => simp [eraseKey]
  | cons p l ih =>
    obtain ⟨k', v'⟩ := p
    simp only [eraseKey]
    split
    · subst_vars; simp only [lookupKey, ih]; split <;> simp_all
    · simp only [lookupKey, ih]; split <;> split <;> simp_all

/-- A present key stands in the list with its value. -/
theorem mem_of_lookupKey {l : List (Nat × Word)} {k : Nat} {v : Word} (h : lookupKey l k = some v) :
    (k, v) ∈ l := by
  induction l with
  | nil => simp at h
  | cons p l ih =>
    obtain ⟨k', v'⟩ := p
    simp only [lookupKey] at h
    split at h
    · simp_all
    · exact List.mem_cons_of_mem _ (ih h)

/-- Every pair after an insertion is the new one or an old one. -/
theorem mem_insertKey {l : List (Nat × Word)} {k : Nat} {v : Word} {p : Nat × Word}
    (h : p ∈ insertKey l k v) : p = (k, v) ∨ p ∈ l := by
  induction l with
  | nil => simpa [insertKey] using h
  | cons q l ih =>
    obtain ⟨k', v'⟩ := q
    simp only [insertKey] at h
    split at h
    · simpa using h
    · split at h
      · rcases List.mem_cons.1 h with h | h <;> simp_all
      · rcases List.mem_cons.1 h with h | h
        · simp [h]
        · rcases ih h with h | h <;> simp [h]

theorem mem_eraseKey {l : List (Nat × Word)} {k : Nat} {p : Nat × Word} (h : p ∈ eraseKey l k) :
    p ∈ l := by
  induction l with
  | nil => simp [eraseKey] at h
  | cons q l ih =>
    obtain ⟨k', v'⟩ := q
    simp only [eraseKey] at h
    split at h
    · exact List.mem_cons_of_mem _ (ih h)
    · rcases List.mem_cons.1 h with h | h
      · simp [h]
      · exact List.mem_cons_of_mem _ (ih h)

theorem sortedKeys_cons (p : Nat × Word) (l : List (Nat × Word)) :
    sortedKeys (p :: l) = true ↔ (∀ q ∈ l, p.1 < q.1) ∧ sortedKeys l = true := by
  simp [sortedKeys]

theorem sortedKeys_insertKey {l : List (Nat × Word)} (k : Nat) (v : Word) (h : sortedKeys l = true) :
    sortedKeys (insertKey l k v) = true := by
  induction l with
  | nil => simp [insertKey, sortedKeys]
  | cons q l ih =>
    obtain ⟨k', v'⟩ := q
    obtain ⟨hlt, hs⟩ := (sortedKeys_cons _ _).1 h
    simp only [insertKey]
    split
    · rename_i hk
      refine (sortedKeys_cons _ _).2 ⟨fun p hp => ?_, h⟩
      rcases List.mem_cons.1 hp with rfl | hp
      · exact hk
      · exact Nat.lt_trans hk (hlt p hp)
    · split
      · subst_vars; exact (sortedKeys_cons _ _).2 ⟨hlt, hs⟩
      · refine (sortedKeys_cons _ _).2 ⟨fun p hp => ?_, ih hs⟩
        rcases mem_insertKey hp with rfl | hp
        · simp only; omega
        · exact hlt p hp

theorem sortedKeys_eraseKey {l : List (Nat × Word)} (k : Nat) (h : sortedKeys l = true) :
    sortedKeys (eraseKey l k) = true := by
  induction l with
  | nil => rfl
  | cons q l ih =>
    obtain ⟨k', v'⟩ := q
    obtain ⟨hlt, hs⟩ := (sortedKeys_cons _ _).1 h
    simp only [eraseKey]
    split
    · exact ih hs
    · exact (sortedKeys_cons _ _).2 ⟨fun p hp => hlt p (mem_eraseKey hp), ih hs⟩

/-- Where keys rise, a pair of the list is what its key looks up. -/
theorem lookupKey_of_mem {l : List (Nat × Word)} {p : Nat × Word} (hs : sortedKeys l = true)
    (hp : p ∈ l) : lookupKey l p.1 = some p.2 := by
  induction l with
  | nil => simp at hp
  | cons q l ih =>
    obtain ⟨hlt, hs⟩ := (sortedKeys_cons _ _).1 hs
    rcases List.mem_cons.1 hp with rfl | hp
    · simp [lookupKey]
    · have := hlt p hp
      simp only [lookupKey, if_neg (show p.1 ≠ q.1 by omega)]
      exact ih hs hp

/-- `mem[j]` after `mem[i] <- v` (20_memory.md R45). -/
theorem Memory.read_write (m : Memory) (i j : Nat) (v : Word) :
    (m.write i v).read j = if j = i then v else m.read j := by
  unfold Memory.read Memory.write
  split
  · rw [lookupKey_eraseKey]; split <;> simp_all
  · rw [lookupKey_insertKey]; split <;> simp_all

@[simp] theorem Memory.read_write_self (m : Memory) (i : Nat) (v : Word) : (m.write i v).read i = v := by
  simp [Memory.read_write]

theorem Memory.read_write_ne (m : Memory) {i j : Nat} (v : Word) (h : j ≠ i) :
    (m.write i v).read j = m.read j := by
  simp [Memory.read_write, h]

@[simp] theorem Memory.read_nil (i : Nat) : Memory.read [] i = 0 := rfl

/-- The one memory operation that writes keeps the canonical form. -/
theorem Memory.wf_write {m : Memory} (i : Nat) (v : Word) (h : m.wf = true) :
    (m.write i v).wf = true := by
  simp only [Memory.wf, Bool.and_eq_true, List.all_eq_true, decide_eq_true_eq] at h ⊢
  unfold Memory.write
  split
  · exact ⟨sortedKeys_eraseKey i h.1, fun p hp => h.2 p (mem_eraseKey hp)⟩
  · refine ⟨sortedKeys_insertKey i v h.1, fun p hp => ?_⟩
    rcases mem_insertKey hp with rfl | hp
    · assumption
    · exact h.2 p hp

/-- A write lists nothing but what was listed and the cell written. -/
theorem Memory.mem_write {m : Memory} {i : Nat} {v : Word} {p : Nat × Word} (h : p ∈ m.write i v) :
    p.1 = i ∨ p ∈ m := by
  unfold Memory.write at h
  split at h
  · exact .inr (mem_eraseKey h)
  · rcases mem_insertKey h with rfl | h <;> simp_all

end Sys2Proof.Machine
end

