-- ==== Sys2Proof/Laws/State.lean ====
section
/-! SUPPORT. One lemma per field per update of State, and the register file's read-after-write law. -/

namespace Sys2Proof.Machine

variable (s : State)

/-! `State.setReg` -/

@[simp] theorem State.setReg_cfg (r : RegIdx) (v : Word) : (s.setReg r v).cfg = s.cfg := rfl
@[simp] theorem State.setReg_regs (r : RegIdx) (v : Word) : (s.setReg r v).regs = s.regs.set r.val v r.isLt := rfl
@[simp] theorem State.setReg_pc (r : RegIdx) (v : Word) : (s.setReg r v).pc = s.pc := rfl
@[simp] theorem State.setReg_running (r : RegIdx) (v : Word) : (s.setReg r v).running = s.running := rfl
@[simp] theorem State.setReg_stopCause (r : RegIdx) (v : Word) : (s.setReg r v).stopCause = s.stopCause := rfl
@[simp] theorem State.setReg_mem (r : RegIdx) (v : Word) : (s.setReg r v).mem = s.mem := rfl
@[simp] theorem State.setReg_cacheEnabled (r : RegIdx) (v : Word) : (s.setReg r v).cacheEnabled = s.cacheEnabled := rfl
@[simp] theorem State.setReg_cmap (r : RegIdx) (v : Word) : (s.setReg r v).cmap = s.cmap := rfl
@[simp] theorem State.setReg_busEvents (r : RegIdx) (v : Word) : (s.setReg r v).busEvents = s.busEvents := rfl

theorem State.reg_setReg (r q : RegIdx) (v : Word) :
    (s.setReg r v).reg q = if q = r then v else s.reg q := by
  simp only [State.reg, State.setReg, Fin.getElem_fin, Vector.getElem_set, Fin.ext_iff, eq_comm]

@[simp] theorem State.setReg_reg_self (r : RegIdx) (v : Word) : (s.setReg r v).reg r = v := by
  simp [State.reg_setReg]

theorem State.setReg_reg_ne {r q : RegIdx} (v : Word) (h : q ≠ r) :
    (s.setReg r v).reg q = s.reg q := by
  simp [State.reg_setReg, h]
@[simp] theorem State.setReg_wordAt (r : RegIdx) (v : Word) (a : Nat) : (s.setReg r v).wordAt a = s.wordAt a := rfl

/-! `State.setPc` -/

@[simp] theorem State.setPc_cfg (v : Word) : (s.setPc v).cfg = s.cfg := rfl
@[simp] theorem State.setPc_regs (v : Word) : (s.setPc v).regs = s.regs := rfl
@[simp] theorem State.setPc_pc (v : Word) : (s.setPc v).pc = v := rfl
@[simp] theorem State.setPc_running (v : Word) : (s.setPc v).running = s.running := rfl
@[simp] theorem State.setPc_stopCause (v : Word) : (s.setPc v).stopCause = s.stopCause := rfl
@[simp] theorem State.setPc_mem (v : Word) : (s.setPc v).mem = s.mem := rfl
@[simp] theorem State.setPc_cacheEnabled (v : Word) : (s.setPc v).cacheEnabled = s.cacheEnabled := rfl
@[simp] theorem State.setPc_cmap (v : Word) : (s.setPc v).cmap = s.cmap := rfl
@[simp] theorem State.setPc_busEvents (v : Word) : (s.setPc v).busEvents = s.busEvents := rfl
@[simp] theorem State.setPc_reg (v : Word) (q : RegIdx) : (s.setPc v).reg q = s.reg q := rfl
@[simp] theorem State.setPc_wordAt (v : Word) (a : Nat) : (s.setPc v).wordAt a = s.wordAt a := rfl

/-! `State.stop` -/

@[simp] theorem State.stop_cfg (c : StopCause) : (s.stop c).cfg = s.cfg := rfl
@[simp] theorem State.stop_regs (c : StopCause) : (s.stop c).regs = s.regs := rfl
@[simp] theorem State.stop_pc (c : StopCause) : (s.stop c).pc = s.pc := rfl
@[simp] theorem State.stop_running (c : StopCause) : (s.stop c).running = false := rfl
@[simp] theorem State.stop_stopCause (c : StopCause) : (s.stop c).stopCause = c := rfl
@[simp] theorem State.stop_mem (c : StopCause) : (s.stop c).mem = s.mem := rfl
@[simp] theorem State.stop_cacheEnabled (c : StopCause) : (s.stop c).cacheEnabled = s.cacheEnabled := rfl
@[simp] theorem State.stop_cmap (c : StopCause) : (s.stop c).cmap = s.cmap := rfl
@[simp] theorem State.stop_busEvents (c : StopCause) : (s.stop c).busEvents = s.busEvents := rfl
@[simp] theorem State.stop_reg (c : StopCause) (q : RegIdx) : (s.stop c).reg q = s.reg q := rfl
@[simp] theorem State.stop_wordAt (c : StopCause) (a : Nat) : (s.stop c).wordAt a = s.wordAt a := rfl

/-! `State.setMem` -/

@[simp] theorem State.setMem_cfg (m : Memory) : (s.setMem m).cfg = s.cfg := rfl
@[simp] theorem State.setMem_regs (m : Memory) : (s.setMem m).regs = s.regs := rfl
@[simp] theorem State.setMem_pc (m : Memory) : (s.setMem m).pc = s.pc := rfl
@[simp] theorem State.setMem_running (m : Memory) : (s.setMem m).running = s.running := rfl
@[simp] theorem State.setMem_stopCause (m : Memory) : (s.setMem m).stopCause = s.stopCause := rfl
@[simp] theorem State.setMem_mem (m : Memory) : (s.setMem m).mem = m := rfl
@[simp] theorem State.setMem_cacheEnabled (m : Memory) : (s.setMem m).cacheEnabled = s.cacheEnabled := rfl
@[simp] theorem State.setMem_cmap (m : Memory) : (s.setMem m).cmap = s.cmap := rfl
@[simp] theorem State.setMem_busEvents (m : Memory) : (s.setMem m).busEvents = s.busEvents := rfl
@[simp] theorem State.setMem_reg (m : Memory) (q : RegIdx) : (s.setMem m).reg q = s.reg q := rfl
@[simp] theorem State.setMem_wordAt (m : Memory) (a : Nat) : (s.setMem m).wordAt a = m.read (a / 4) := rfl

/-! `State.setCacheEnabled` -/

@[simp] theorem State.setCacheEnabled_cfg (b : Bool) : (s.setCacheEnabled b).cfg = s.cfg := rfl
@[simp] theorem State.setCacheEnabled_regs (b : Bool) : (s.setCacheEnabled b).regs = s.regs := rfl
@[simp] theorem State.setCacheEnabled_pc (b : Bool) : (s.setCacheEnabled b).pc = s.pc := rfl
@[simp] theorem State.setCacheEnabled_running (b : Bool) : (s.setCacheEnabled b).running = s.running := rfl
@[simp] theorem State.setCacheEnabled_stopCause (b : Bool) : (s.setCacheEnabled b).stopCause = s.stopCause := rfl
@[simp] theorem State.setCacheEnabled_mem (b : Bool) : (s.setCacheEnabled b).mem = s.mem := rfl
@[simp] theorem State.setCacheEnabled_cacheEnabled (b : Bool) : (s.setCacheEnabled b).cacheEnabled = b := rfl
@[simp] theorem State.setCacheEnabled_cmap (b : Bool) : (s.setCacheEnabled b).cmap = s.cmap := rfl
@[simp] theorem State.setCacheEnabled_busEvents (b : Bool) : (s.setCacheEnabled b).busEvents = s.busEvents := rfl
@[simp] theorem State.setCacheEnabled_reg (b : Bool) (q : RegIdx) : (s.setCacheEnabled b).reg q = s.reg q := rfl
@[simp] theorem State.setCacheEnabled_wordAt (b : Bool) (a : Nat) : (s.setCacheEnabled b).wordAt a = s.wordAt a := rfl

/-! `State.setCmap` -/

@[simp] theorem State.setCmap_cfg (m : CacheMap) : (s.setCmap m).cfg = s.cfg := rfl
@[simp] theorem State.setCmap_regs (m : CacheMap) : (s.setCmap m).regs = s.regs := rfl
@[simp] theorem State.setCmap_pc (m : CacheMap) : (s.setCmap m).pc = s.pc := rfl
@[simp] theorem State.setCmap_running (m : CacheMap) : (s.setCmap m).running = s.running := rfl
@[simp] theorem State.setCmap_stopCause (m : CacheMap) : (s.setCmap m).stopCause = s.stopCause := rfl
@[simp] theorem State.setCmap_mem (m : CacheMap) : (s.setCmap m).mem = s.mem := rfl
@[simp] theorem State.setCmap_cacheEnabled (m : CacheMap) : (s.setCmap m).cacheEnabled = s.cacheEnabled := rfl
@[simp] theorem State.setCmap_cmap (m : CacheMap) : (s.setCmap m).cmap = m := rfl
@[simp] theorem State.setCmap_busEvents (m : CacheMap) : (s.setCmap m).busEvents = s.busEvents := rfl
@[simp] theorem State.setCmap_reg (m : CacheMap) (q : RegIdx) : (s.setCmap m).reg q = s.reg q := rfl
@[simp] theorem State.setCmap_wordAt (m : CacheMap) (a : Nat) : (s.setCmap m).wordAt a = s.wordAt a := rfl

/-! `State.logEvent` -/

@[simp] theorem State.logEvent_cfg (e : BusEvent) : (s.logEvent e).cfg = s.cfg := rfl
@[simp] theorem State.logEvent_regs (e : BusEvent) : (s.logEvent e).regs = s.regs := rfl
@[simp] theorem State.logEvent_pc (e : BusEvent) : (s.logEvent e).pc = s.pc := rfl
@[simp] theorem State.logEvent_running (e : BusEvent) : (s.logEvent e).running = s.running := rfl
@[simp] theorem State.logEvent_stopCause (e : BusEvent) : (s.logEvent e).stopCause = s.stopCause := rfl
@[simp] theorem State.logEvent_mem (e : BusEvent) : (s.logEvent e).mem = s.mem := rfl
@[simp] theorem State.logEvent_cacheEnabled (e : BusEvent) : (s.logEvent e).cacheEnabled = s.cacheEnabled := rfl
@[simp] theorem State.logEvent_cmap (e : BusEvent) : (s.logEvent e).cmap = s.cmap := rfl
@[simp] theorem State.logEvent_busEvents (e : BusEvent) : (s.logEvent e).busEvents = s.busEvents ++ [e] := rfl
@[simp] theorem State.logEvent_reg (e : BusEvent) (q : RegIdx) : (s.logEvent e).reg q = s.reg q := rfl
@[simp] theorem State.logEvent_wordAt (e : BusEvent) (a : Nat) : (s.logEvent e).wordAt a = s.wordAt a := rfl

/-! `State.resetWith` -/

@[simp] theorem State.resetWith_cfg (c : Config) : (State.resetWith c).cfg = c := rfl
@[simp] theorem State.resetWith_mem (c : Config) : (State.resetWith c).mem = [] := rfl
@[simp] theorem State.resetWith_cmap (c : Config) : (State.resetWith c).cmap = [] := rfl
@[simp] theorem State.resetWith_pc (c : Config) : (State.resetWith c).pc = 0 := rfl
@[simp] theorem State.resetWith_running (c : Config) : (State.resetWith c).running = true := rfl
@[simp] theorem State.resetWith_stopCause (c : Config) : (State.resetWith c).stopCause = .none := rfl
@[simp] theorem State.resetWith_cacheEnabled (c : Config) : (State.resetWith c).cacheEnabled = false := rfl
@[simp] theorem State.resetWith_busEvents (c : Config) : (State.resetWith c).busEvents = [] := rfl

@[simp] theorem State.resetWith_reg (c : Config) (q : RegIdx) : (State.resetWith c).reg q = 0 := by
  simp [State.reg, State.resetWith]

end Sys2Proof.Machine
end

