-- ==== Sys2Proof/Laws/Ops.lean ====
section
/-! SUPPORT. One law per shared operation: everything the bus, the cache controller, the fetch and the
guard can do (20_memory.md R42 to R57, 40_fetch_step.md R111 to R113). -/

namespace Sys2Proof.Machine

variable {s t : State} {addr : Nat} {v w : Word}

theorem inRange_iff (c : Config) (addr : Nat) : inRange c addr = true ↔ addr / 4 < c.memWords := by
  simp [inRange]

/-- The two forms of the range test (20_memory.md R43). -/
theorem inRange_iff_lt_memBytes (c : Config) (addr : Nat) :
    inRange c addr = true ↔ addr < c.memBytes := by
  simp only [inRange_iff, Config.memBytes]; omega

theorem pcInRange_iff (s : State) : pcInRange s = true ↔ s.pc.toNat < s.cfg.memBytes := by
  simp [pcInRange]

theorem inRange_pc (h : pcInRange s = true) : inRange s.cfg s.pc.toNat = true :=
  (inRange_iff_lt_memBytes _ _).2 ((pcInRange_iff s).1 h)

@[simp] theorem tag_div (addr : Nat) : tag addr / 4 = addr / 4 := by unfold tag; omega

@[simp] theorem tag_mod (addr : Nat) : tag addr % 4 = 0 := by unfold tag; omega

@[simp] theorem tag_tag (addr : Nat) : tag (tag addr) = tag addr := by unfold tag; omega

theorem tag_eq_tag_iff (a b : Nat) : tag a = tag b ↔ a / 4 = b / 4 := by unfold tag; omega

theorem inRange_tag (c : Config) (addr : Nat) : inRange c (tag addr) = inRange c addr := by
  simp [inRange]

/-! `cacheFill` -/

@[simp] theorem cacheFill_cfg : (cacheFill addr v s).cfg = s.cfg := by unfold cacheFill; split <;> rfl
@[simp] theorem cacheFill_regs : (cacheFill addr v s).regs = s.regs := by unfold cacheFill; split <;> rfl
@[simp] theorem cacheFill_pc : (cacheFill addr v s).pc = s.pc := by unfold cacheFill; split <;> rfl
@[simp] theorem cacheFill_running : (cacheFill addr v s).running = s.running := by
  unfold cacheFill; split <;> rfl
@[simp] theorem cacheFill_stopCause : (cacheFill addr v s).stopCause = s.stopCause := by
  unfold cacheFill; split <;> rfl
@[simp] theorem cacheFill_mem : (cacheFill addr v s).mem = s.mem := by unfold cacheFill; split <;> rfl
@[simp] theorem cacheFill_cacheEnabled : (cacheFill addr v s).cacheEnabled = s.cacheEnabled := by
  unfold cacheFill; split <;> rfl
@[simp] theorem cacheFill_busEvents : (cacheFill addr v s).busEvents = s.busEvents := by
  unfold cacheFill; split <;> rfl
@[simp] theorem cacheFill_reg (q : RegIdx) : (cacheFill addr v s).reg q = s.reg q := by
  unfold cacheFill; split <;> rfl
@[simp] theorem cacheFill_wordAt (a : Nat) : (cacheFill addr v s).wordAt a = s.wordAt a := by
  unfold cacheFill; split <;> rfl

theorem cacheFill_disabled (h : s.cacheEnabled = false) : cacheFill addr v s = s := by
  simp [cacheFill, h]

theorem cacheFill_lookup (h : s.cacheEnabled = true) (k : Nat) :
    lookupKey (cacheFill addr v s).cmap k = if k = tag addr then some v else lookupKey s.cmap k := by
  simp [cacheFill, h, lookupKey_insertKey]

theorem mem_cacheFill_cmap {p : Nat × Word} (h : p ∈ (cacheFill addr v s).cmap) :
    p = (tag addr, v) ∨ p ∈ s.cmap := by
  unfold cacheFill at h
  split at h
  · exact mem_insertKey h
  · exact .inr h

/-! Bus and cache operations -/

theorem busRead_inRange (h : inRange s.cfg addr = true) :
    busRead addr s = .ok (s.wordAt addr, s.logEvent (.rd (addr / 4))) := by
  simp [busRead, h, State.wordAt]

theorem busRead_outOfRange (h : inRange s.cfg addr = false) :
    busRead addr s = .error .outOfRangeAccess := by
  simp [busRead, h]

/-- A hit issues no bus operation (20_memory.md R51). -/
theorem cacheRead_hit (h : cachedWord addr s = some v) : cacheRead addr s = .ok (v, s) := by
  simp [cacheRead, h]

/-- A miss is served by the bus and inserted if the cache is enabled (20_memory.md R52). -/
theorem cacheRead_miss (h : cachedWord addr s = none) (hr : inRange s.cfg addr = true) :
    cacheRead addr s =
      .ok (s.wordAt addr, cacheFill addr (s.wordAt addr) (s.logEvent (.rd (addr / 4)))) := by
  simp [cacheRead, h, busRead_inRange hr]

theorem cacheRead_outOfRange (h : cachedWord addr s = none) (hr : inRange s.cfg addr = false) :
    cacheRead addr s = .error .outOfRangeAccess := by
  simp [cacheRead, h, busRead_outOfRange hr]

/-- All that a successful cache read can be: a hit, or a miss in range. -/
theorem cacheRead_cases (h : cacheRead addr s = .ok (v, t)) :
    (cachedWord addr s = some v ∧ t = s) ∨
    (cachedWord addr s = none ∧ inRange s.cfg addr = true ∧ v = s.wordAt addr ∧
      t = cacheFill addr v (s.logEvent (.rd (addr / 4)))) := by
  cases hc : cachedWord addr s with
  | some u => rw [cacheRead_hit hc] at h; cases h; exact .inl ⟨rfl, rfl⟩
  | none =>
    cases hr : inRange s.cfg addr with
    | false => rw [cacheRead_outOfRange hc hr] at h; cases h
    | true => rw [cacheRead_miss hc hr] at h; cases h; exact .inr ⟨rfl, rfl, rfl, rfl⟩

/-- A cache read in range succeeds. -/
theorem cacheRead_ok_of_inRange (hr : inRange s.cfg addr = true) :
    ∃ v t, cacheRead addr s = .ok (v, t) := by
  cases hc : cachedWord addr s with
  | some v => exact ⟨v, s, cacheRead_hit hc⟩
  | none => exact ⟨_, _, cacheRead_miss hc hr⟩

/-- A cache read changes nothing but the mapping and the bus history. -/
theorem cacheRead_frame (h : cacheRead addr s = .ok (v, t)) :
    t.cfg = s.cfg ∧ t.regs = s.regs ∧ t.pc = s.pc ∧ t.running = s.running ∧
      t.stopCause = s.stopCause ∧ t.mem = s.mem ∧ t.cacheEnabled = s.cacheEnabled := by
  obtain ⟨-, rfl⟩ | ⟨-, -, -, rfl⟩ := cacheRead_cases h <;> simp

/-- The write-through write (20_memory.md R54). -/
theorem cacheWrite_inRange (h : inRange s.cfg addr = true) :
    cacheWrite addr v s = .ok (((cacheFill addr v s).setMem (s.mem.write (addr / 4) v)).logEvent
      (.wr (addr / 4) v)) := by
  simp [cacheWrite, busWrite, h]

theorem cacheWrite_outOfRange (h : inRange s.cfg addr = false) :
    cacheWrite addr v s = .error .outOfRangeAccess := by
  simp [cacheWrite, h]

/-- `CacheSetState` by its code (20_memory.md R55). -/
theorem cacheSetState_cases (code : BitVec 5) (s : State) :
    (code.toNat = 0 ∧ cacheSetState code s = (s.setCacheEnabled false).setCmap []) ∨
    (code.toNat = 1 ∧ cacheSetState code s = s.setCacheEnabled true) ∨
    (code.toNat = 2 ∧ cacheSetState code s = s.setCmap []) ∨
    (2 < code.toNat ∧ cacheSetState code s = s) := by
  unfold cacheSetState
  by_cases h0 : code.toNat = 0
  · simp [h0]
  · by_cases h1 : code.toNat = 1
    · simp [h1]
    · by_cases h2 : code.toNat = 2
      · simp [h2]
      · simp only [h0, h1, h2, if_false, false_and, false_or, and_true]; omega

theorem cacheSetState_frame (code : BitVec 5) (s : State) :
    (cacheSetState code s).cfg = s.cfg ∧ (cacheSetState code s).regs = s.regs ∧
      (cacheSetState code s).pc = s.pc ∧ (cacheSetState code s).running = s.running ∧
      (cacheSetState code s).stopCause = s.stopCause ∧ (cacheSetState code s).mem = s.mem ∧
      (cacheSetState code s).busEvents = s.busEvents := by
  obtain ⟨-, h⟩ | ⟨-, h⟩ | ⟨-, h⟩ | ⟨-, h⟩ := cacheSetState_cases code s <;> simp [h]

/-! The fetch -/

theorem fetch_of_cacheRead (h : cacheRead s.pc.toNat s = .ok (w, t)) :
    fetch s = .ok (w, t.setPc (t.pc + 4)) := by
  simp [fetch, h, incrementPc]

/-- All that a successful fetch can be. -/
theorem fetch_cases (h : fetch s = .ok (w, t)) :
    ∃ u, cacheRead s.pc.toNat s = .ok (w, u) ∧ t = u.setPc (s.pc + 4) := by
  unfold fetch at h
  split at h
  · cases h
  · rename_i hr
    cases h
    exact ⟨_, hr, by simp [incrementPc, (cacheRead_frame hr).2.2.1]⟩

/-- After the guard the fetch cannot fail (40_fetch_step.md R115). -/
theorem fetch_ok (h : pcInRange s = true) : ∃ w t, fetch s = .ok (w, t) := by
  obtain ⟨v, t, hr⟩ := cacheRead_ok_of_inRange (inRange_pc h)
  exact ⟨_, _, fetch_of_cacheRead hr⟩

end Sys2Proof.Machine
end

