-- ==== Sys2Proof/Laws/Exec.lean ====
section
/-! SUPPORT. One law per meaning whose form a proof would otherwise unfold, and the shape of a step. -/

namespace Sys2Proof.Machine

variable {s t : State}

/-- LW in range, by the cache read it makes (43_loadstore.md R167). -/
theorem execLw_inRange {rs rt : RegIdx} {imm : BitVec 16} {v : Word}
    (h : inRange s.cfg (effectiveAddress s rs imm) = true)
    (hr : cacheRead (effectiveAddress s rs imm) s = .ok (v, t)) :
    execLw rs rt imm s = .next (t.setReg rt v) := by
  simp [execLw, h, hr]

/-- LW out of range (43_loadstore.md R168). -/
theorem execLw_outOfRange {rs rt : RegIdx} {imm : BitVec 16}
    (h : inRange s.cfg (effectiveAddress s rs imm) = false) :
    execLw rs rt imm s = takeAccessFault (effectiveAddress s rs imm) s := by
  simp [execLw, h]

/-- SW in range (43_loadstore.md R169). -/
theorem execSw_inRange {rs rt : RegIdx} {imm : BitVec 16}
    (h : inRange s.cfg (effectiveAddress s rs imm) = true) :
    execSw rs rt imm s =
      .next (((cacheFill (effectiveAddress s rs imm) (s.reg rt) s).setMem
        (s.mem.write (effectiveAddress s rs imm / 4) (s.reg rt))).logEvent
          (.wr (effectiveAddress s rs imm / 4) (s.reg rt))) := by
  simp [execSw, h, cacheWrite_inRange h]

/-- SW out of range (43_loadstore.md R170). -/
theorem execSw_outOfRange {rs rt : RegIdx} {imm : BitVec 16}
    (h : inRange s.cfg (effectiveAddress s rs imm) = false) :
    execSw rs rt imm s = takeAccessFault (effectiveAddress s rs imm) s := by
  simp [execSw, h]

@[simp] theorem execNoOp_eq (n : NoOp) (s : State) : execNoOp n s = .next s := by
  cases n <;> rfl

theorem execWord_instr {w : Word} {i : Instr} (h : decode s.cfg.bneOpcode w = .ok i) :
    execWord w s = exec i s := by
  simp [execWord, h]

theorem execWord_noOp {w : Word} {n : NoOp} (h : decode s.cfg.bneOpcode w = .error n) :
    execWord w s = .next s := by
  simp [execWord, h]

theorem step_stopped (h : s.running = false) : step s = .fault .notRunning := by
  simp [step, h]

theorem step_guard (h : s.running = true) (hp : pcInRange s = false) :
    step s = .next (s.stop .pcOutOfRange) := by
  simp [step, h, hp, stopOutOfRange]

theorem step_fetched {w : Word} (h : s.running = true) (hp : pcInRange s = true)
    (hf : fetch s = .ok (w, t)) : step s = execWord w t := by
  simp [step, h, hp, hf]

/-- All that a step can be (40_fetch_step.md R110). -/
theorem step_cases (s : State) :
    (s.running = false ∧ step s = .fault .notRunning) ∨
    (s.running = true ∧ pcInRange s = false ∧ step s = .next (s.stop .pcOutOfRange)) ∨
    (s.running = true ∧ pcInRange s = true ∧
      ∃ w u, cacheRead s.pc.toNat s = .ok (w, u) ∧ step s = execWord w (u.setPc (s.pc + 4))) := by
  cases hr : s.running with
  | false => exact .inl ⟨rfl, step_stopped hr⟩
  | true =>
    cases hp : pcInRange s with
    | false => exact .inr (.inl ⟨rfl, rfl, step_guard hr hp⟩)
    | true =>
      obtain ⟨w, t, hf⟩ := fetch_ok hp
      obtain ⟨u, hu, rfl⟩ := fetch_cases hf
      exact .inr (.inr ⟨rfl, rfl, w, u, hu, step_fetched hr hp hf⟩)

/-! What an instruction can do. -/

theorem wordsDiffer_iff (a b : Word) : wordsDiffer a b = true ↔ a ≠ b := by simp [wordsDiffer]

/-- The spec's signed32 is the two's complement value. -/
theorem signed32_eq_toInt (w : Word) : signed32 w = w.toInt := by
  unfold signed32; rw [BitVec.toInt_eq_toNat_cond]; split <;> split <;> omega

theorem toNat_add4 (pc : Word) : (pc + 4).toNat = (pc.toNat + 4) % 2 ^ 32 := by
  have h4 : (4 : Word).toNat = 4 := rfl
  rw [BitVec.toNat_add, h4]

theorem branchTarget_toNat (pc : Word) (imm : BitVec 16) :
    (branchTarget pc imm).toNat = (pc.toNat + 4 * imm.toNat) % 2 ^ 32 := by
  simp [branchTarget, zext16]

@[simp] theorem jumpTarget_toNat (target : BitVec 26) :
    (jumpTarget target).toNat = 4 * target.toNat := by
  have := target.isLt
  simp only [jumpTarget, zext26, BitVec.toNat_ofNat]; omega

/-- `ExecNext s i t`: the instruction `i`, begun in `s`, ends in `t`. One constructor per way an
instruction completes. -/
inductive ExecNext (s : State) : Instr → State → Prop
  | add (rs rt rd : RegIdx) :
    ExecNext s (.add rs rt rd) (s.setReg rd (aluAdd (s.reg rs) (s.reg rt)))
  | sub (rs rt rd : RegIdx) :
    ExecNext s (.sub rs rt rd) (s.setReg rd (aluSub (s.reg rs) (s.reg rt)))
  | slt (rs rt rd : RegIdx) :
    ExecNext s (.slt rs rt rd) (s.setReg rd (aluSlt (s.reg rs) (s.reg rt)))
  | addi (rs rt : RegIdx) (imm : BitVec 16) :
    ExecNext s (.addi rs rt imm)
      (s.setReg rt (aluAdd (s.reg rs) (BitVec.ofNat 32 (zext16 imm))))
  | bneTaken (rs rt : RegIdx) (imm : BitVec 16) (h : s.reg rs ≠ s.reg rt) :
    ExecNext s (.bne rs rt imm) (s.setPc (branchTarget s.pc imm))
  | bneNotTaken (rs rt : RegIdx) (imm : BitVec 16) (h : s.reg rs = s.reg rt) :
    ExecNext s (.bne rs rt imm) s
  | j (target : BitVec 26) : ExecNext s (.j target) (s.setPc (jumpTarget target))
  | jal (target : BitVec 26) :
    ExecNext s (.jal target) ((s.setReg 31 s.pc).setPc (jumpTarget target))
  | lw (rs rt : RegIdx) (imm : BitVec 16) (v : Word) (u : State)
    (hr : inRange s.cfg (effectiveAddress s rs imm) = true)
    (hu : cacheRead (effectiveAddress s rs imm) s = .ok (v, u)) :
    ExecNext s (.lw rs rt imm) (u.setReg rt v)
  | sw (rs rt : RegIdx) (imm : BitVec 16) (t : State)
    (hr : inRange s.cfg (effectiveAddress s rs imm) = true)
    (hw : cacheWrite (effectiveAddress s rs imm) (s.reg rt) s = .ok t) :
    ExecNext s (.sw rs rt imm) t
  | cache (code : BitVec 5) : ExecNext s (.cache code) (cacheSetState code s)
  | halt : ExecNext s .halt (s.stop .halt)

/-- All that an instruction answering a next state can have done. -/
theorem execNext_of_exec {i : Instr} (h : exec i s = .next t) : ExecNext s i t := by
  cases i with
  | add rs rt rd => cases h; exact .add rs rt rd
  | sub rs rt rd => cases h; exact .sub rs rt rd
  | slt rs rt rd => cases h; exact .slt rs rt rd
  | addi rs rt imm => cases h; exact .addi rs rt imm
  | bne rs rt imm =>
    simp only [exec, execBne] at h
    split at h <;> rename_i hd <;> cases h
    · exact .bneTaken rs rt imm ((wordsDiffer_iff _ _).1 hd)
    · exact .bneNotTaken rs rt imm (by_contra fun hn => hd ((wordsDiffer_iff _ _).2 hn))
  | j target => cases h; exact .j target
  | jal target => cases h; exact .jal target
  | lw rs rt imm =>
    simp only [exec] at h
    cases hr : inRange s.cfg (effectiveAddress s rs imm) with
    | false => rw [execLw_outOfRange hr] at h; cases h
    | true =>
      obtain ⟨v, u, hu⟩ := cacheRead_ok_of_inRange hr
      rw [execLw_inRange hr hu] at h; cases h
      exact .lw rs rt imm v u hr hu
  | sw rs rt imm =>
    simp only [exec] at h
    cases hr : inRange s.cfg (effectiveAddress s rs imm) with
    | false => rw [execSw_outOfRange hr] at h; cases h
    | true =>
      rw [execSw_inRange hr] at h; cases h
      exact .sw rs rt imm _ hr (cacheWrite_inRange hr)
  | cache code => cases h; exact .cache code
  | halt => cases h; exact .halt

/-- An instruction answers a next state, or is an LW or SW out of range that takes the access
fault. -/
theorem exec_cases (i : Instr) (s : State) : (∃ t, exec i s = .next t) ∨
    (∃ rs rt imm, (i = .lw rs rt imm ∨ i = .sw rs rt imm) ∧
      inRange s.cfg (effectiveAddress s rs imm) = false ∧
      exec i s = takeAccessFault (effectiveAddress s rs imm) s) := by
  cases i with
  | lw rs rt imm =>
    cases hr : inRange s.cfg (effectiveAddress s rs imm) with
    | false => exact .inr ⟨rs, rt, imm, .inl rfl, hr, execLw_outOfRange hr⟩
    | true =>
      obtain ⟨v, u, hu⟩ := cacheRead_ok_of_inRange hr
      exact .inl ⟨_, execLw_inRange hr hu⟩
  | sw rs rt imm =>
    cases hr : inRange s.cfg (effectiveAddress s rs imm) with
    | false => exact .inr ⟨rs, rt, imm, .inr rfl, hr, execSw_outOfRange hr⟩
    | true => exact .inl ⟨_, execSw_inRange hr⟩
  | bne rs rt imm => left; simp only [exec, execBne]; split <;> exact ⟨_, rfl⟩
  | _ => exact .inl ⟨_, rfl⟩

end Sys2Proof.Machine
end

