-- ==== Sys2Proof/Laws/Inv.lean ====
section
/-! SUPPORT. The invariant over the shared operations: what a cached Word is, and that each update
keeps the invariant. -/

namespace Sys2Proof.Machine

variable {s t : State} {addr : Nat} {v : Word}

/-- A hit returns the memory Word (20_memory.md R60). -/
theorem StateInv.cachedWord_eq (hi : StateInv s) (h : cachedWord addr s = some v) : v = s.wordAt addr := by
  unfold cachedWord at h
  split at h
  · simpa [State.wordAt] using hi.cacheAgrees _ (mem_of_lookupKey h)
  · cases h

/-- A hit is in range (20_memory.md R56). -/
theorem StateInv.inRange_of_hit (hi : StateInv s) (h : cachedWord addr s = some v) :
    inRange s.cfg addr = true := by
  unfold cachedWord at h
  split at h
  · simpa [inRange_tag] using (hi.cacheInRange _ (mem_of_lookupKey h)).2
  · cases h

theorem StateInv.setReg (hi : StateInv s) (r : RegIdx) (v : Word) : StateInv (s.setReg r v) :=
  ⟨hi.cfgLegal, hi.memCanonical, hi.memInArray, hi.cmapSorted, hi.disabledEmpty, hi.cacheAgrees,
    hi.cacheInRange, hi.pcAligned, hi.causeMatches⟩

theorem StateInv.setPc (hi : StateInv s) (v : Word) (h : v.toNat % 4 = 0) : StateInv (s.setPc v) :=
  ⟨hi.cfgLegal, hi.memCanonical, hi.memInArray, hi.cmapSorted, hi.disabledEmpty, hi.cacheAgrees,
    hi.cacheInRange, h, hi.causeMatches⟩

theorem StateInv.logEvent (hi : StateInv s) (e : BusEvent) : StateInv (s.logEvent e) :=
  ⟨hi.cfgLegal, hi.memCanonical, hi.memInArray, hi.cmapSorted, hi.disabledEmpty, hi.cacheAgrees,
    hi.cacheInRange, hi.pcAligned, hi.causeMatches⟩

theorem StateInv.stop (hi : StateInv s) (c : StopCause) (h : c ≠ .none) : StateInv (s.stop c) :=
  ⟨hi.cfgLegal, hi.memCanonical, hi.memInArray, hi.cmapSorted, hi.disabledEmpty, hi.cacheAgrees,
    hi.cacheInRange, hi.pcAligned, by simp [h]⟩

theorem StateInv.cacheSetState (hi : StateInv s) (code : BitVec 5) : StateInv (cacheSetState code s) := by
  obtain ⟨-, h⟩ | ⟨-, h⟩ | ⟨-, h⟩ | ⟨-, h⟩ := cacheSetState_cases code s <;> rw [h]
  · exact ⟨hi.cfgLegal, hi.memCanonical, hi.memInArray, rfl, fun _ => rfl, by simp, by simp,
      hi.pcAligned, hi.causeMatches⟩
  · exact ⟨hi.cfgLegal, hi.memCanonical, hi.memInArray, hi.cmapSorted, by simp, hi.cacheAgrees,
      hi.cacheInRange, hi.pcAligned, hi.causeMatches⟩
  · exact ⟨hi.cfgLegal, hi.memCanonical, hi.memInArray, rfl, fun _ => rfl, by simp, by simp,
      hi.pcAligned, hi.causeMatches⟩
  · exact hi

theorem cacheFill_cmapSorted (h : sortedKeys s.cmap = true) :
    sortedKeys (cacheFill addr v s).cmap = true := by
  unfold cacheFill; split
  · exact sortedKeys_insertKey _ _ h
  · exact h

theorem cacheFill_disabledEmpty (h : s.cacheEnabled = false → s.cmap = []) :
    (cacheFill addr v s).cacheEnabled = false → (cacheFill addr v s).cmap = [] := by
  intro he
  rw [cacheFill_cacheEnabled] at he
  rw [cacheFill_disabled he]; exact h he

/-- Filling the cache with the memory Word of an address in range keeps the invariant. -/
theorem StateInv.cacheFill (hi : StateInv s) (hr : inRange s.cfg addr = true) :
    StateInv (cacheFill addr (s.wordAt addr) s) := by
  refine ⟨by simpa using hi.cfgLegal, by simpa using hi.memCanonical, by simpa using hi.memInArray,
    cacheFill_cmapSorted hi.cmapSorted, cacheFill_disabledEmpty hi.disabledEmpty, fun p hp => ?_,
    fun p hp => ?_, by simpa using hi.pcAligned, by simpa using hi.causeMatches⟩
  · rw [cacheFill_mem]
    rcases mem_cacheFill_cmap hp with rfl | hp
    · simp [State.wordAt]
    · exact hi.cacheAgrees p hp
  · rw [cacheFill_cfg]
    rcases mem_cacheFill_cmap hp with rfl | hp
    · simpa [inRange_tag] using hr
    · exact hi.cacheInRange p hp

/-- A cache read keeps the invariant and returns the memory Word. -/
theorem StateInv.cacheRead (hi : StateInv s) (h : Machine.cacheRead addr s = .ok (v, t)) :
    StateInv t ∧ v = s.wordAt addr := by
  obtain ⟨hc, rfl⟩ | ⟨-, hr, rfl, rfl⟩ := cacheRead_cases h
  · exact ⟨hi, hi.cachedWord_eq hc⟩
  · exact ⟨(hi.logEvent _).cacheFill (s := s.logEvent (.rd (addr / 4))) (by simpa using hr), rfl⟩

/-- A cache write keeps the invariant. -/
theorem StateInv.cacheWrite (hi : StateInv s) (h : Machine.cacheWrite addr v s = .ok t) : StateInv t := by
  cases hr : inRange s.cfg addr with
  | false => rw [cacheWrite_outOfRange hr] at h; cases h
  | true =>
    rw [cacheWrite_inRange hr] at h
    cases h
    have hsort := hi.cmapSorted
    refine ⟨by simpa using hi.cfgLegal, by simpa using Memory.wf_write _ _ hi.memCanonical,
      fun p hp => ?_, ?_, ?_, fun p hp => ?_, fun p hp => ?_, by simpa using hi.pcAligned,
      by simpa using hi.causeMatches⟩
    · simp only [State.logEvent_mem, State.setMem_mem, State.logEvent_cfg, State.setMem_cfg,
        cacheFill_cfg] at hp ⊢
      rcases Memory.mem_write hp with h | h
      · rw [h]; exact (inRange_iff _ _).1 hr
      · exact hi.memInArray p h
    · exact cacheFill_cmapSorted hsort
    · exact cacheFill_disabledEmpty hi.disabledEmpty
    · simp only [State.logEvent_cmap, State.setMem_cmap] at hp
      simp only [State.logEvent_mem, State.setMem_mem, Memory.read_write]
      cases he : s.cacheEnabled with
      | false => rw [cacheFill_disabled he, hi.disabledEmpty he] at hp; simp at hp
      | true =>
        have hl := lookupKey_of_mem (cacheFill_cmapSorted hsort) hp
        rw [cacheFill_lookup he] at hl
        split at hl
        · rename_i hk
          simp only [Option.some.injEq] at hl
          simp [hk, hl]
        · rename_i hk
          have hm := mem_of_lookupKey hl
          have h4 := (hi.cacheInRange _ hm).1
          have : p.1 / 4 ≠ addr / 4 := by
            intro he; apply hk; unfold tag; simp only at h4; omega
          rw [if_neg this]
          exact hi.cacheAgrees _ hm
    · simp only [State.logEvent_cmap, State.setMem_cmap] at hp
      simp only [State.logEvent_cfg, State.setMem_cfg, cacheFill_cfg]
      rcases mem_cacheFill_cmap hp with rfl | hp
      · simpa [inRange_tag] using hr
      · exact hi.cacheInRange p hp

/-- The increment keeps the pc a multiple of 4 (40_fetch_step.md R116). -/
theorem pcAligned_add4 {pc : Word} (h : pc.toNat % 4 = 0) : (pc + 4).toNat % 4 = 0 := by
  have h4 : (4 : Word).toNat = 4 := rfl
  rw [BitVec.toNat_add, h4]; omega

theorem branchTarget_aligned {pc : Word} {imm : BitVec 16} (h : pc.toNat % 4 = 0) :
    (branchTarget pc imm).toNat % 4 = 0 := by
  simp only [branchTarget, zext16, BitVec.toNat_ofNat]; omega

theorem jumpTarget_aligned (target : BitVec 26) : (jumpTarget target).toNat % 4 = 0 := by
  rw [jumpTarget_toNat]; omega

/-- Every instruction keeps the invariant, and so does the fault it may take. -/
theorem StateInv.exec {i : Instr} (hi : StateInv s) :
    (∀ t, Machine.exec i s = .next t → StateInv t) ∧
      ∀ ea left, Machine.exec i s = .fault (.accessFault ea left) → StateInv left := by
  constructor
  · intro t h
    cases execNext_of_exec h with
    | add rs rt rd => exact hi.setReg _ _
    | sub rs rt rd => exact hi.setReg _ _
    | slt rs rt rd => exact hi.setReg _ _
    | addi rs rt imm => exact hi.setReg _ _
    | bneTaken rs rt imm _ => exact hi.setPc _ (branchTarget_aligned hi.pcAligned)
    | bneNotTaken rs rt imm _ => exact hi
    | j target => exact hi.setPc _ (jumpTarget_aligned target)
    | jal target => exact (hi.setReg _ _).setPc _ (jumpTarget_aligned target)
    | lw rs rt imm v u hr hu => exact (hi.cacheRead hu).1.setReg _ _
    | sw rs rt imm _ hr hw => exact hi.cacheWrite hw
    | cache code => exact hi.cacheSetState code
    | halt => exact hi.stop _ (by decide)
  · intro ea l h
    rcases exec_cases i s with ⟨t, ht⟩ | ⟨rs, rt, imm, hi', hr, ht⟩
    · rw [ht] at h; cases h
    · rw [ht] at h; cases h
      exact hi.stop _ (by decide)

end Sys2Proof.Machine
end

