-- ==== Sys2Proof/Laws/PerInstr.lean ====
section
/-! SUPPORT. A statement about every instruction as syntax: the canonical Word of an instruction lies
in its own row of the opcode map (30_encoding.md R90). -/

namespace Sys2Proof

/-- The opcode column of R90. -/
def rowOpcode (bne : BneOpcode) : Instr → Nat
  | .add _ _ _ => 0x00
  | .sub _ _ _ => 0x00
  | .slt _ _ _ => 0x00
  | .addi _ _ _ => 0x08
  | .bne _ _ _ => bne.value
  | .j _ => 0x02
  | .jal _ => 0x03
  | .lw _ _ _ => 0x23
  | .sw _ _ _ => 0x2B
  | .cache _ => 0x3A
  | .halt => 0x3F

/-- The funct column of R90; none outside format R. -/
def rowFunct : Instr → Option Nat
  | .add _ _ _ => some 0x20
  | .sub _ _ _ => some 0x22
  | .slt _ _ _ => some 0x2A
  | .addi _ _ _ => none
  | .bne _ _ _ => none
  | .j _ => none
  | .jal _ => none
  | .lw _ _ _ => none
  | .sw _ _ _ => none
  | .cache _ => none
  | .halt => none

end Sys2Proof

namespace Sys2Proof.Laws.EncodeMatchesRow

/-- The canonical Word has the row's opcode and, in format R, the row's funct. -/
def Statement (i : Instr) : Prop :=
  ∀ bne : BneOpcode, bits (encode bne i) 31 26 = rowOpcode bne i ∧
    ∀ f, rowFunct i = some f → bits (encode bne i) 5 0 = f

theorem statement_of_R {i : Instr} {f : Nat} {rd rs rt : RegIdx} (hf : f < 64)
    (he : ∀ b, encode b i = encR f rd rs rt) (ho : ∀ b, rowOpcode b i = 0) (hr : rowFunct i = some f) :
    Statement i := by
  intro b
  obtain ⟨h1, h2, -⟩ := encR_fields f rd rs rt hf
  rw [he, ho, hr]
  exact ⟨h1, fun g hg => by cases hg; exact h2⟩

theorem add (rs rt rd : RegIdx) : Statement (.add rs rt rd) :=
  statement_of_R (by decide) (fun _ => rfl) (fun _ => rfl) rfl

theorem sub (rs rt rd : RegIdx) : Statement (.sub rs rt rd) :=
  statement_of_R (by decide) (fun _ => rfl) (fun _ => rfl) rfl

theorem slt (rs rt rd : RegIdx) : Statement (.slt rs rt rd) :=
  statement_of_R (by decide) (fun _ => rfl) (fun _ => rfl) rfl

theorem addi (rs rt : RegIdx) (imm : BitVec 16) : Statement (.addi rs rt imm) :=
  fun _ => ⟨(encI_fields 0x08 rt rs imm (by decide)).1, nofun⟩

theorem bne (rs rt : RegIdx) (imm : BitVec 16) : Statement (.bne rs rt imm) :=
  fun b => ⟨(encI_fields b.value rt rs imm b.value_lt).1, nofun⟩

theorem j (target : BitVec 26) : Statement (.j target) :=
  fun _ => ⟨(encJ_fields 0x02 target (by decide)).1, nofun⟩

theorem jal (target : BitVec 26) : Statement (.jal target) :=
  fun _ => ⟨(encJ_fields 0x03 target (by decide)).1, nofun⟩

theorem lw (rs rt : RegIdx) (imm : BitVec 16) : Statement (.lw rs rt imm) :=
  fun _ => ⟨(encI_fields 0x23 rt rs imm (by decide)).1, nofun⟩

theorem sw (rs rt : RegIdx) (imm : BitVec 16) : Statement (.sw rs rt imm) :=
  fun _ => ⟨(encI_fields 0x2B rt rs imm (by decide)).1, nofun⟩

theorem cache (code : BitVec 5) : Statement (.cache code) :=
  fun _ => ⟨(encC_fields code).1, nofun⟩

theorem halt : Statement .halt := fun _ => ⟨encH_fields, nofun⟩

end Sys2Proof.Laws.EncodeMatchesRow
end

