-- ==== Sys2Proof/Laws/Step.lean ====
section
/-! SUPPORT. The fetch as Safety's `Fetched` says it, a step by what it decoded, and runs. -/

namespace Sys2Proof.Machine

variable {s s1 t : State} {w : Word}

/-- What a fetch does, in the terms of the claims. -/
theorem fetched_of_fetch (h : fetch s = .ok (w, s1)) : Fetched s w s1 := by
  obtain ⟨u, hu, rfl⟩ := fetch_cases h
  obtain ⟨hc, rfl⟩ | ⟨hc, hr, rfl, rfl⟩ := cacheRead_cases hu
  · refine ⟨toNat_add4 _, fun _ _ => rfl, fun _ => rfl, ⟨rfl, rfl, rfl⟩, rfl, fun v hv => ?_,
      fun hn => ?_⟩
    · rw [hc] at hv; cases hv; exact ⟨rfl, rfl, rfl⟩
    · rw [hc] at hn; cases hn
  · refine ⟨toNat_add4 _, fun _ _ => by simp, fun _ => by simp, ⟨by simp, by simp, by simp⟩,
      by simp, fun v hv => ?_, fun _ => ⟨rfl, by simp, fun he => ?_, fun he k => ?_⟩⟩
    · rw [hc] at hv; cases hv
    · simp [cacheFill_disabled (s := s.logEvent _) (by simpa using he)]
    · simpa using cacheFill_lookup (s := s.logEvent _) (by simpa using he) k

theorem fetch_cfg (h : fetch s = .ok (w, s1)) : s1.cfg = s.cfg := (fetched_of_fetch h).run.2.2

theorem effectiveAddress_fetch (h : fetch s = .ok (w, s1)) (rs : RegIdx) (imm : BitVec 16) :
    effectiveAddress s1 rs imm = effectiveAddress s rs imm := by
  unfold effectiveAddress; rw [(fetched_of_fetch h).regs rs (by simp)]

theorem step_of_instr {i : Instr} (h : s.running = true) (hp : s.pc.toNat < s.cfg.memBytes)
    (hf : fetch s = .ok (w, s1)) (hd : decode s.cfg.bneOpcode w = .ok i) : step s = exec i s1 := by
  rw [step_fetched h ((pcInRange_iff s).2 hp) hf, execWord_instr (by rw [fetch_cfg hf]; exact hd)]

theorem step_of_noOp {n : NoOp} (h : s.running = true) (hp : s.pc.toNat < s.cfg.memBytes)
    (hf : fetch s = .ok (w, s1)) (hd : decode s.cfg.bneOpcode w = .error n) :
    step s = .next s1 := by
  rw [step_fetched h ((pcInRange_iff s).2 hp) hf, execWord_noOp (by rw [fetch_cfg hf]; exact hd)]

/-! Runs of the machine behind the host's interface. -/

theorem run_zero (s : State) : Host.Core.run core 0 s = .next s := rfl

theorem run_succ_next (k : Nat) (h : step s = .next t) :
    Host.Core.run core (k + 1) s = Host.Core.run core k t := by
  have e : core.step s = .next t := h
  simp only [Host.Core.run, e]

theorem run_succ_fault (k : Nat) {f : Fault} (h : step s = .fault f) :
    Host.Core.run core (k + 1) s = .fault f := by
  have e : core.step s = .fault f := h
  simp only [Host.Core.run, e]

theorem run_succ_refused (k : Nat) {r : Refusal} (h : step s = .refused r) :
    Host.Core.run core (k + 1) s = .refused r := by
  have e : core.step s = .refused r := h
  simp only [Host.Core.run, e]

end Sys2Proof.Machine
end

