-- ==== Sys2Proof/Laws/Visible.lean ====
section
/-! SUPPORT. What the host cannot see stays unseen: `SameVisible` over the updates and over a cache
read (20_memory.md R60). -/

namespace Sys2Proof.Machine

variable {s t u u' : State}

theorem SameVisible.reg (h : SameVisible s t) (q : RegIdx) : t.reg q = s.reg q := by
  rw [State.reg, h.regs, State.reg]

theorem SameVisible.wordAt (h : SameVisible s t) (a : Nat) : t.wordAt a = s.wordAt a := by
  rw [State.wordAt, h.mem, State.wordAt]

theorem SameVisible.effectiveAddress (h : SameVisible s t) (rs : RegIdx) (imm : BitVec 16) :
    Machine.effectiveAddress t rs imm = Machine.effectiveAddress s rs imm := by
  unfold Machine.effectiveAddress; rw [h.reg]

theorem SameVisible.setReg (h : SameVisible s t) (q : RegIdx) (v : Word) :
    SameVisible (s.setReg q v) (t.setReg q v) :=
  ⟨h.cfg, by simp [h.regs], h.pc, h.running, h.stopCause, h.mem⟩

theorem SameVisible.setPc (h : SameVisible s t) (v : Word) : SameVisible (s.setPc v) (t.setPc v) :=
  ⟨h.cfg, h.regs, rfl, h.running, h.stopCause, h.mem⟩

theorem SameVisible.stop (h : SameVisible s t) (c : StopCause) : SameVisible (s.stop c) (t.stop c) :=
  ⟨h.cfg, h.regs, h.pc, rfl, rfl, h.mem⟩

/-- A CACHE operation changes nothing the host can see. -/
theorem sameVisible_cacheSetState (code : BitVec 5) (s : State) :
    SameVisible s (cacheSetState code s) := by
  obtain ⟨c1, c2, c3, c4, c5, c6, -⟩ := cacheSetState_frame code s
  exact ⟨c1, c2, c3, c4, c5, c6⟩

/-- Cache reads of one address from two such states of the invariant give one Word. -/
theorem SameVisible.cacheRead {addr : Nat} {v v' : Word} (h : SameVisible s t) (his : StateInv s)
    (hit : StateInv t) (hu : Machine.cacheRead addr s = .ok (v, u))
    (hu' : Machine.cacheRead addr t = .ok (v', u')) : v' = v ∧ SameVisible u u' := by
  obtain ⟨c1, c2, c3, c4, c5, c6, -⟩ := cacheRead_frame hu
  obtain ⟨d1, d2, d3, d4, d5, d6, -⟩ := cacheRead_frame hu'
  refine ⟨by rw [(his.cacheRead hu).2, (hit.cacheRead hu').2, h.wordAt], ?_, ?_, ?_, ?_, ?_, ?_⟩
  · rw [c1, d1, h.cfg]
  · rw [c2, d2, h.regs]
  · rw [c3, d3, h.pc]
  · rw [c4, d4, h.running]
  · rw [c5, d5, h.stopCause]
  · rw [c6, d6, h.mem]

end Sys2Proof.Machine
end

