-- ==== Sys2Proof/Tests/Slice0.lean ====
section
/-! SUPPORT. Tests of one step each, with expected results from the spec's vectors
(95_test_vectors.md, cited by V number); smoke tests of the well-formedness checks; and, for each
obligation with hypotheses, a concrete state and operands that meet them all. -/

namespace Sys2Proof.Tests

open Sys2Proof Sys2Proof.Machine

/-- The reset state with some registers, memory Words (by index) and a pc. -/
def mk (regs : List (RegIdx × Word)) (mem : List (Nat × Word)) (pc : Word) : State :=
  let s := regs.foldl (fun s p => s.setReg p.1 p.2) State.reset
  (s.setMem (mem.foldl (fun m p => m.write p.1 p.2) [])).setPc pc

/-- The same with the cache enabled and a mapping. -/
def withCache (cmap : CacheMap) (s : State) : State := (s.setCacheEnabled true).setCmap cmap

/-- The same with BNE_OPCODE = 0x04. -/
def withOp04 (s : State) : State := { s with cfg := { s.cfg with bneOpcode := .op04 } }

/-- A next state that satisfies `p`. -/
def nextSat (o : Result) (p : State → Bool) : Bool :=
  match o with
  | .next t => p t
  | .fault _ => false
  | .refused _ => false

/-- An access fault whose address and left state satisfy `p`. -/
def faultSat (o : Result) (p : Nat → State → Bool) : Bool :=
  match o with
  | .fault (.accessFault ea left) => p ea left
  | .fault .notRunning => false
  | .next _ => false
  | .refused _ => false

/-! ## Decoding, Words written out from the formats of 30_encoding.md R82 to R86 -/

theorem test_decode_add : decode .op05 0b00000000001000100001100000100000 = .ok (.add 1 2 3) := by decide
theorem test_decode_sub : decode .op05 0b00000000001000100001100000100010 = .ok (.sub 1 2 3) := by decide
theorem test_decode_slt : decode .op05 0b00000000001000100001100000101010 = .ok (.slt 1 2 3) := by decide
theorem test_decode_addi : decode .op05 0b00100000001000101111111111111111 = .ok (.addi 1 2 65535) := by decide
theorem test_decode_bne : decode .op05 0b00010100001000100000000000000001 = .ok (.bne 1 2 1) := by decide
theorem test_decode_bne_04 : decode .op04 0b00010000001000100000000000000001 = .ok (.bne 1 2 1) := by decide
theorem test_decode_j : decode .op05 0b00001011111111111111111111111111 = .ok (.j 0x3FFFFFF) := by decide
theorem test_decode_jal : decode .op05 0b00001100000000000000000000001000 = .ok (.jal 8) := by decide
theorem test_decode_lw : decode .op05 0b10001100001000100000000000000100 = .ok (.lw 1 2 4) := by decide
theorem test_decode_sw : decode .op05 0b10101100001001000000000000000100 = .ok (.sw 1 4 4) := by decide
theorem test_decode_cache : decode .op05 0b11101000000000000000000000000111 = .ok (.cache 7) := by decide
theorem test_decode_halt : decode .op05 0b11111100000000000000000000000000 = .ok .halt := by decide

/-- V14, V20: ignored bits set. -/
theorem test_decode_ignored_bits : decode .op05 0x002218A0 = .ok (.add 1 2 3) ∧
    decode .op05 0xE80FFFE1 = .ok (.cache 1) ∧ decode .op05 0xFFFFFFFF = .ok .halt := by decide

/-- V20: Words that are no instruction, MIPS AND and JR among them. -/
theorem test_decode_noops : decode .op05 0x00000000 = .error (.unknownFunct 0) ∧
    decode .op05 0x00221824 = .error (.unknownFunct 0x24) ∧
    decode .op05 0x03E00008 = .error (.unknownFunct 0x08) ∧
    decode .op05 0x03FFFFFF = .error (.unknownFunct 0x3F) ∧
    decode .op05 0xF0000000 = .error (.unknownOpcode 0x3C) ∧
    decode .op05 0x10220001 = .error (.unknownOpcode 0x04) ∧
    decode .op04 0x14220001 = .error (.unknownOpcode 0x05) := by decide

/-- V21. -/
theorem test_encode : encode .op05 (.sub 0 2 1) = 0x00020822 ∧ encode .op05 (.slt 2 1 4) = 0x0041202A ∧
    encode .op05 (.lw 1 2 4) = 0x8C220004 ∧ encode .op05 (.sw 1 4 4) = 0xAC240004 ∧
    encode .op05 (.bne 1 2 1) = 0x14220001 ∧ encode .op04 (.bne 1 2 1) = 0x10220001 ∧
    encode .op05 (.j 3) = 0x08000003 ∧ encode .op05 (.jal 8) = 0x0C000008 ∧
    encode .op05 (.cache 1) = 0xE8000001 ∧ encode .op05 .halt = 0xFC000000 := by decide

theorem test_tableWord : decodeTableWord 32 0x2B000000 = none ∧
    decodeTableWord 32 0x20010005 = some (.addi 0 1 5) := by decide

/-- A line with the wrong operands (30_encoding.md R106). -/
theorem test_assemble_malformed :
    assemble .op05 .ADD [.reg 3, .reg 1] = .error .malformedInputLine := by decide

/-! ## Well-formedness: one ill-formed term per check -/

theorem test_wf_memWords_zero : ({ memWords := 0, bneOpcode := .op05 } : Config).wf = false := by decide
theorem test_wf_memWords_large :
    ({ memWords := 2 ^ 30 + 1, bneOpcode := .op05 } : Config).wf = false := by decide
theorem test_wf_memWords_bounds : ({ memWords := 1, bneOpcode := .op04 } : Config).wf = true ∧
    ({ memWords := 2 ^ 30, bneOpcode := .op05 } : Config).wf = true := by decide
theorem test_wf_startPc :
    ({ LaunchParams.ofImage [] with startPc := 2 } : LaunchParams).wf = false ∧
    launch { LaunchParams.ofImage [] with startPc := 2 } = .error .misalignedStartPc := by decide
theorem test_wf_image_index : (LaunchParams.ofImage [(1024, 0)]).wf = false ∧
    launch (LaunchParams.ofImage [(1024, 0)]) = .error .imageIndexOutOfRange := by decide
theorem test_wf_image_value_negative : (LaunchParams.ofImage [(0, -1)]).wf = false ∧
    launch (LaunchParams.ofImage [(0, -1)]) = .error .imageValueNotAWord := by decide
theorem test_wf_image_value_large : (LaunchParams.ofImage [(0, 2 ^ 32)]).wf = false ∧
    launch (LaunchParams.ofImage [(0, 2 ^ 32)]) = .error .imageValueNotAWord := by decide
theorem test_wf_image_repeated : (LaunchParams.ofImage [(3, 1), (3, 2)]).wf = false ∧
    launch (LaunchParams.ofImage [(3, 1), (3, 2)]) = .error .imageIndexRepeated := by decide

/-! ## One step each -/

/-- The Word placed by withFetchWord is the first to run after reset (V19a). -/
theorem test_first_word : nextSat (step (State.reset.withFetchWord 32 0x20010005))
    (fun t => t.reg 1 == 5 && t.pc == 4 && t.running) = true := by decide

/-- V11 (wrap) and V14b (register 0 is written). -/
theorem test_add : nextSat (step (mk [(1, 0xFFFFFFFF), (2, 1), (3, 0x77)] [(0, 0x00221820)] 0))
      (fun t => t.reg 3 == 0 && t.pc == 4) = true ∧
    nextSat (step (mk [(1, 5), (2, 0xA)] [(0, 0x00220020)] 0)) (fun t => t.reg 0 == 0xF) = true := by
  decide

/-- V13: rd = rs = rt. -/
theorem test_add_same_register :
    nextSat (step (mk [(1, 0x80000001)] [(0, 0x00210820)] 0)) (fun t => t.reg 1 == 2) = true := by decide

/-- V15 and V16. -/
theorem test_sub : nextSat (step (mk [(1, 7), (2, 9)] [(0, 0x00221822)] 0))
      (fun t => t.reg 3 == 0xFFFFFFFE) = true ∧
    nextSat (step (mk [(1, 0x80000000), (2, 1)] [(0, 0x00221822)] 0))
      (fun t => t.reg 3 == 0x7FFFFFFF) = true := by decide

/-- V18, rows 6 and 7: where the wrapped difference would be wrong. -/
theorem test_slt : nextSat (step (mk [(1, 0x80000000), (2, 0x7FFFFFFF), (3, 0xAAAA)] [(0, 0x0022182A)] 0))
      (fun t => t.reg 3 == 1) = true ∧
    nextSat (step (mk [(1, 0x7FFFFFFF), (2, 0x80000000), (3, 0xAAAA)] [(0, 0x0022182A)] 0))
      (fun t => t.reg 3 == 0) = true := by decide

/-- V19b (the immediate is never negative) and V19e (register 0 is no constant). -/
theorem test_addi : nextSat (step (mk [(1, 1)] [(0, 0x2022FFFF)] 0)) (fun t => t.reg 2 == 0x10000) = true ∧
    nextSat (step (mk [(0, 9)] [(0, 0x20010005)] 0)) (fun t => t.reg 1 == 0xE) = true := by decide

/-- V30, V31 and V32. -/
theorem test_bne : nextSat (step (mk [(1, 1), (2, 5)] [(5, 0x14220001)] 20)) (fun t => t.pc == 28) = true ∧
    nextSat (step (mk [(1, 5), (2, 5)] [(5, 0x14220001)] 20)) (fun t => t.pc == 24) = true ∧
    nextSat (step (mk [(1, 1)] [(0, 0x1422FFFF)] 0)) (fun t => t.pc == 0x40000) = true := by decide

/-- V33a, V33b and V33c: both values of BNE_OPCODE. -/
theorem test_bne_opcode :
    nextSat (step (withOp04 (mk [(1, 1), (2, 5)] [(5, 0x14220001)] 20))) (fun t => t.pc == 24) = true ∧
    nextSat (step (withOp04 (mk [(1, 1), (2, 5)] [(5, 0x10220001)] 20))) (fun t => t.pc == 28) = true ∧
    nextSat (step (mk [(1, 1), (2, 5)] [(5, 0x10220001)] 20)) (fun t => t.pc == 24) = true := by decide

/-- V34 (backward) and V35 (the greatest target). -/
theorem test_j : nextSat (step (mk [] [(7, 0x08000003)] 28)) (fun t => t.pc == 12) = true ∧
    nextSat (step (mk [] [(0, 0x0BFFFFFF)] 0)) (fun t => t.pc == 0x0FFFFFFC) = true := by decide

/-- V36: the link is pc_fetch + 4, not + 8. -/
theorem test_jal : nextSat (step (mk [(31, 0x99)] [(5, 0x0C000008)] 20))
    (fun t => t.reg 31 == 24 && t.pc == 32) = true := by decide

/-- V41 (misaligned), V42 (rt = rs) and V46a (the last byte address). -/
theorem test_lw : nextSat (step (mk [(1, 256)] [(0, 0x8C220006), (65, 0xE)] 0))
      (fun t => t.reg 2 == 0xE && t.busEvents == [.rd 0, .rd 65]) = true ∧
    nextSat (step (mk [(1, 256)] [(0, 0x8C210004), (65, 0xE)] 0)) (fun t => t.reg 1 == 0xE) = true ∧
    nextSat (step (mk [] [(0, 0x8C220FFF), (1023, 0x1234)] 0)) (fun t => t.reg 2 == 0x1234) = true := by
  decide

/-- V46b (the first address out of range) and V47 (an address of 2^32 does not wrap). -/
theorem test_lw_fault : faultSat (step (mk [(2, 0x55)] [(0, 0x8C221000)] 0))
      (fun ea t => ea == 4096 && t.reg 2 == 0x55 && !t.running && t.stopCause == .accessFault &&
        t.pc == 4 && t.busEvents == [.rd 0]) = true ∧
    faultSat (step (mk [(1, 0xFFFFFFFF), (2, 0x55)] [(0, 0x8C220001)] 0))
      (fun ea t => ea == 2 ^ 32 && t.reg 2 == 0x55 && !t.running) = true := by decide

/-- V44b: the whole Word 65 is replaced, its neighbours are not. -/
theorem test_sw : nextSat (step (mk [(1, 256), (4, 0xABCD1234)] [(0, 0xAC240007), (64, 7), (66, 9)] 0))
    (fun t => t.mem.read 65 == 0xABCD1234 && t.mem.read 64 == 7 && t.mem.read 66 == 9 &&
      t.busEvents == [.rd 0, .wr 65 0xABCD1234]) = true := by decide

/-- V48: a faulting store with the cache enabled leaves only the fetch's entry. -/
theorem test_sw_fault : faultSat (step (withCache [] (mk [(1, 4096), (4, 9)] [(0, 0xAC240000)] 0)))
    (fun ea t => ea == 4096 && t.cmap == [(0, 0xAC240000)] && t.mem == [(0, 0xAC240000)] &&
      t.stopCause == .accessFault && t.pc == 4) = true := by decide

/-- V54 (codes 3 to 31 do nothing) and V54b (the own fetch is not inserted). -/
theorem test_cache : nextSat (step (withCache [(256, 7)] (mk [] [(0, 0xE8000007), (64, 7)] 0)))
      (fun t => t.cacheEnabled && t.cmap == [(0, 0xE8000007), (256, 7)]) = true ∧
    nextSat (step (mk [] [(0, 0xE80FFFE1)] 0)) (fun t => t.cacheEnabled && t.cmap == []) = true := by
  decide

/-- V52, rows 12 and 20: a flush and a disable remove their own fetch's entry too. -/
theorem test_cache_clears : nextSat (step (withCache [(256, 7)] (mk [] [(3, 0xE8000002), (64, 7)] 12)))
      (fun t => t.cacheEnabled && t.cmap == []) = true ∧
    nextSat (step (withCache [(256, 7)] (mk [] [(5, 0xE8000000), (64, 7)] 20)))
      (fun t => !t.cacheEnabled && t.cmap == []) = true := by decide

/-- V50 and V51. -/
theorem test_halt : nextSat (step (mk [(1, 3)] [(3, 0xFC000000)] 12))
      (fun t => !t.running && t.stopCause == .halt && t.pc == 16 && t.reg 1 == 3) = true ∧
    nextSat (step (mk [] [(3, 0xFFFFFFFF)] 12)) (fun t => !t.running && t.pc == 16) = true := by decide

/-- V1A and V53b: no-ops. -/
theorem test_noop : nextSat (step (mk [(1, 5), (2, 0xA), (3, 7)] [(0, 0x00221824)] 0))
      (fun t => t.reg 3 == 7 && t.pc == 4 && t.running) = true ∧
    nextSat (step (mk [] [(0, 0xF0000000)] 0)) (fun t => t.pc == 4 && t.running) = true := by decide

/-- V60 and V61: the guard at the boundary. -/
theorem test_guard : nextSat (step (mk [] [] 4096))
      (fun t => !t.running && t.stopCause == .pcOutOfRange && t.pc == 4096 && t.busEvents == []) = true ∧
    nextSat (step (mk [] [] 4092)) (fun t => t.running && t.pc == 4096 && t.busEvents == [.rd 1023]) = true := by
  decide

/-- V62: a stopped core has no step. -/
theorem test_stopped : step ((mk [] [] 16).stop .halt) = .fault .notRunning := rfl

/-- P7, step 5: a stored instruction is fetched from the cache entry the store set. -/
theorem test_fetch_hit : nextSat (step (withCache [(16, 0x20070123)] (mk [] [(4, 0x20070123)] 16)))
    (fun t => t.reg 7 == 0x123 && t.busEvents == []) = true := by decide

/-! ## Witnesses: states and operands that meet each obligation's hypotheses -/

/-- A running state with the cache on, `w` at pc 8, and the Word 7 at byte address 256 cached. -/
def sample (w : Word) : State :=
  withCache [(256, 7)] (mk [(1, 256), (2, 5), (4, 0xE)] [(2, w), (64, 7)] 8)

theorem sample_inv (w : Word) (h : w ≠ 0) : StateInv (sample w) := by
  have h' : ¬ w = 0#32 := h
  have hm : (sample w).mem = [(2, w), (64, 7)] := by
    simp [sample, withCache, mk, Memory.write, h', insertKey, State.setMem, State.setPc, State.setCmap,
      State.setCacheEnabled]
  have hc : (sample w).cmap = [(256, 7)] := rfl
  have hp : (sample w).pc = 8 := rfl
  refine ⟨rfl, ?_, ?_, ?_, nofun, ?_, ?_, by rw [hp]; decide, ⟨fun _ => rfl, fun _ => rfl⟩⟩
  · rw [hm]; simp [Memory.wf, sortedKeys, h']
  · have hw : (sample w).cfg.memWords = 1024 := rfl
    rw [hm, hw]; simp
  · rw [hc]; decide
  · rw [hm, hc]; simp [Memory.read, lookupKey]
  · rw [hc]
    intro p hp
    have hp : p = (256, 7) := by simpa using hp
    subst hp
    exact ⟨rfl, rfl⟩

theorem witness_LaunchGivesTheLaunchPremises :
    (LaunchParams.ofImage [(0, 0x20010005), (1023, 2 ^ 32 - 1)]).wf = true ∧
    (LaunchParams.ofImage [(1024, 0)]).wf = false := by decide

/-- Both premises, at the boundary index 1023 and the boundary values 0 and 2^32 - 1; and each of the
three grounds of refusal. -/
theorem witness_BusLoadStoresAllPairsOrIsRefused :
    (∀ p ∈ [(1023, (0 : Int)), (0, 2 ^ 32 - 1)], p.1 < State.reset.cfg.memWords ∧ 0 ≤ p.2 ∧ p.2 < 2 ^ 32) ∧
    ([(1023, (0 : Int)), (0, 2 ^ 32 - 1)].map Prod.fst).Nodup ∧
    (State.reset.cfg.memWords ≤ 1024 ∧ (-1 : Int) < 0 ∧ (2 ^ 32 : Int) ≤ 2 ^ 32) := by decide

theorem witness_HostObservesOnlyAStoppedCoreAndNotItsCache :
    State.reset.running = true ∧ (State.reset.stop .halt).running = false ∧
    SameVisible (mk [] [(64, 7)] 0) (withCache [(256, 7)] (mk [] [(64, 7)] 0)) :=
  ⟨rfl, rfl, rfl, rfl, rfl, rfl, rfl, rfl⟩

theorem witness_EncodeOfDecodeClearsOnlyTheIgnoredBits :
    decode .op05 0x002218A0 = .ok (.add 1 2 3) := by decide

theorem witness_OnlyAStoppedCoreIsStuck : (State.reset.stop .halt).running = false ∧
    State.reset.running = true := by decide

theorem witness_StepIsGuardFetchIncrementExecute :
    (State.reset.stop .halt).running = false ∧
    ((mk [] [] 4096).running = true ∧ ¬ (mk [] [] 4096).pc.toNat < (mk [] [] 4096).cfg.memBytes) ∧
    ((mk [] [] 4092).running = true ∧ (mk [] [] 4092).pc.toNat < (mk [] [] 4092).cfg.memBytes) ∧
    decode .op05 ((sample 0x00221820).wordAt 8) = .ok (.add 1 2 3) ∧
    decode .op05 ((mk [] [] 4092).wordAt 4092) = .error (.unknownFunct 0) := by decide

theorem witness_StepRunsTheInstructionInMemory :
    StateInv (sample 0x00221820) ∧ (sample 0x00221820).running = true ∧
    (sample 0x00221820).pc.toNat < (sample 0x00221820).cfg.memBytes :=
  ⟨sample_inv _ (by decide), by decide, by decide⟩

theorem witness_PlacedWordIsTheNextOneRun :
    StateInv State.reset ∧ State.reset.running = true ∧
    State.reset.pc.toNat < State.reset.cfg.memBytes :=
  ⟨by constructor <;> decide, by decide, by decide⟩

theorem witness_PcOutsideMemoryStopsGracefully :
    (mk [] [] 4096).running = true ∧ (mk [] [] 4096).cfg.memBytes ≤ (mk [] [] 4096).pc.toNat := by decide

theorem witness_UnknownFunctIsANoOp : ∃ s1, (sample 0x00221824).running = true ∧
    (sample 0x00221824).pc.toNat < (sample 0x00221824).cfg.memBytes ∧
    fetch (sample 0x00221824) = .ok (0x00221824, s1) ∧ bits 0x00221824 31 26 = 0x00 ∧
    bits 0x00221824 5 0 ≠ 0x20 ∧ bits 0x00221824 5 0 ≠ 0x22 ∧ bits 0x00221824 5 0 ≠ 0x2A :=
  ⟨_, by decide, by decide, rfl, by decide⟩

theorem witness_UnknownOpcodeIsANoOp : ∃ s1, (sample 0xF0000000).running = true ∧
    (sample 0xF0000000).pc.toNat < (sample 0xF0000000).cfg.memBytes ∧
    fetch (sample 0xF0000000) = .ok (0xF0000000, s1) ∧
    bits 0xF0000000 31 26 ∉ [0x00, 0x02, 0x03, 0x08,
      (sample 0xF0000000).cfg.bneOpcode.value, 0x23, 0x2B, 0x3A, 0x3F] :=
  ⟨_, by decide, by decide, rfl, by decide⟩

theorem witness_PcAfterAStepIsTheTablesValue : ∃ s1 t, (sample 0x14220001).running = true ∧
    (sample 0x14220001).pc.toNat < (sample 0x14220001).cfg.memBytes ∧
    fetch (sample 0x14220001) = .ok (0x14220001, s1) ∧ step (sample 0x14220001) = .next t :=
  ⟨_, _, by decide, by decide, rfl, rfl⟩

theorem witness_OnlyJumpsGoBackwardAndPcDoesNotWrap : ∃ s1 t,
    (sample 0x14220001).cfg.memWords ≤ 2 ^ 30 - 2 ^ 16 ∧ (sample 0x14220001).running = true ∧
    (sample 0x14220001).pc.toNat < (sample 0x14220001).cfg.memBytes ∧
    (sample 0x14220001).pc.toNat % 4 = 0 ∧ fetch (sample 0x14220001) = .ok (0x14220001, s1) ∧
    step (sample 0x14220001) = .next t ∧
    decode (sample 0x14220001).cfg.bneOpcode 0x14220001 = .ok (.bne 1 2 1) :=
  ⟨_, _, by decide, by decide, by decide, by decide, rfl, rfl, by decide⟩

/-- A stop by the guard, a stop by HALT, and an access fault. -/
theorem witness_OnlyTheListedEventsEndARun :
    (∃ t, (mk [] [] 4096).running = true ∧ step (mk [] [] 4096) = .next t ∧ t.running = false) ∧
    (∃ t, (sample 0xFC000000).running = true ∧ step (sample 0xFC000000) = .next t ∧ t.running = false) ∧
    (∃ f, (sample 0x8C22FFFC).running = true ∧ step (sample 0x8C22FFFC) = .fault f) :=
  ⟨⟨_, rfl, rfl, rfl⟩, ⟨_, rfl, rfl, rfl⟩, ⟨_, rfl, rfl⟩⟩

theorem witness_AccessFaultLeavesTheStateAfterTheFetch : ∃ s1, (sample 0x8C22FFFC).running = true ∧
    (sample 0x8C22FFFC).pc.toNat < (sample 0x8C22FFFC).cfg.memBytes ∧
    fetch (sample 0x8C22FFFC) = .ok (0x8C22FFFC, s1) ∧
    decode (sample 0x8C22FFFC).cfg.bneOpcode 0x8C22FFFC = .ok (.lw 1 2 0xFFFC) ∧
    (sample 0x8C22FFFC).cfg.memBytes ≤ effectiveAddress (sample 0x8C22FFFC) 1 0xFFFC :=
  ⟨_, by decide, by decide, rfl, by decide, by decide⟩

/-- A next state and an access fault, both from states of the invariant. -/
theorem witness_EveryStepKeepsTheInvariant :
    StateInv (sample 0x00221820) ∧ (∃ t, step (sample 0x00221820) = .next t) ∧
    StateInv (sample 0x8C22FFFC) ∧
    ∃ ea left, step (sample 0x8C22FFFC) = .fault (.accessFault ea left) :=
  ⟨sample_inv _ (by decide), ⟨_, rfl⟩, sample_inv _ (by decide), _, _, rfl⟩

theorem witness_NoStepChangesTheParameters : (∃ t, step (sample 0x00221820) = .next t) ∧
    ∃ ea left, step (sample 0x8C22FFFC) = .fault (.accessFault ea left) := ⟨⟨_, rfl⟩, _, _, rfl⟩

theorem witness_StepWritesOnlyTheDestinationRegister :
    (∃ s1 t, fetch (sample 0x00221820) = .ok (0x00221820, s1) ∧ (sample 0x00221820).running = true ∧
      step (sample 0x00221820) = .next t) ∧
    (∃ t, (mk [] [] 4096).cfg.memBytes ≤ (mk [] [] 4096).pc.toNat ∧ step (mk [] [] 4096) = .next t) :=
  ⟨⟨_, _, rfl, rfl, rfl⟩, _, by decide, rfl⟩

theorem witness_OnlySwChangesMemory : ∃ t, step (sample 0xAC240004) = .next t ∧
    t.wordAt 260 ≠ (sample 0xAC240004).wordAt 260 := ⟨_, rfl, by decide⟩

theorem witness_OnlyCacheWritesTheEnableFlag : ∃ t, step (sample 0xE8000000) = .next t ∧
    t.cacheEnabled ≠ (sample 0xE8000000).cacheEnabled := ⟨_, rfl, by decide⟩

theorem witness_JumpToItselfLoopsForEver : StateInv (sample 0x08000002) ∧
    (sample 0x08000002).running = true ∧
    (sample 0x08000002).pc.toNat < (sample 0x08000002).cfg.memBytes ∧
    decode (sample 0x08000002).cfg.bneOpcode
      ((sample 0x08000002).wordAt (sample 0x08000002).pc.toNat) = .ok (.j 2) ∧
    (sample 0x08000002).pc.toNat = 4 * (2 : BitVec 26).toNat :=
  ⟨sample_inv _ (by decide), by decide, by decide, by decide, by decide⟩

theorem witness_AddWritesTheSum : bits 0x002218A0 31 26 = 0x00 ∧ bits 0x002218A0 5 0 = 0x20 ∧
    (1 : RegIdx).val = bits 0x002218A0 25 21 ∧ (2 : RegIdx).val = bits 0x002218A0 20 16 ∧
    (3 : RegIdx).val = bits 0x002218A0 15 11 := by decide

theorem witness_SubWritesTheDifference : bits 0x00221822 31 26 = 0x00 ∧ bits 0x00221822 5 0 = 0x22 ∧
    (1 : RegIdx).val = bits 0x00221822 25 21 ∧ (2 : RegIdx).val = bits 0x00221822 20 16 ∧
    (3 : RegIdx).val = bits 0x00221822 15 11 := by decide

/-- The encoding, and both outcomes of the comparison. -/
theorem witness_SltWritesTheSignedComparison : bits 0x0022182A 31 26 = 0x00 ∧
    bits 0x0022182A 5 0 = 0x2A ∧ (1 : RegIdx).val = bits 0x0022182A 25 21 ∧
    (2 : RegIdx).val = bits 0x0022182A 20 16 ∧ (3 : RegIdx).val = bits 0x0022182A 15 11 ∧
    (0x80000000 : Word).toInt < (0x7FFFFFFF : Word).toInt ∧
    (0x80000000 : Word).toInt ≤ (0x80000000 : Word).toInt := by decide

theorem witness_AddiWritesTheSumWithTheUnsignedImmediate : bits 0x2022FFFF 31 26 = 0x08 ∧
    (1 : RegIdx).val = bits 0x2022FFFF 25 21 ∧ (2 : RegIdx).val = bits 0x2022FFFF 20 16 ∧
    (65535 : BitVec 16).toNat = bits 0x2022FFFF 15 0 := by decide

/-- The encoding under both parameters, registers that differ and registers that do not, and a taken
branch to outside memory. -/
theorem witness_BneBranchesExactlyWhenTheRegistersDiffer :
    bits 0x14220001 31 26 = BneOpcode.op05.value ∧ bits 0x10220001 31 26 = BneOpcode.op04.value ∧
    (sample 1).reg 1 ≠ (sample 1).reg 2 ∧ (sample 1).reg 3 = (sample 1).reg 5 ∧
    (sample 1).cfg.memWords ≤ 2 ^ 30 - 2 ^ 16 ∧ (sample 1).pc.toNat ≤ (sample 1).cfg.memBytes ∧
    (sample 1).running = true ∧
    (sample 1).cfg.memBytes ≤ (branchTarget (sample 1).pc 65535).toNat := by decide

theorem witness_JumpGoesToFourTimesTheTarget : bits 0x08000003 31 26 = 0x02 ∧
    (3 : BitVec 26).toNat = bits 0x08000003 25 0 ∧ (sample 1).running = true ∧
    (sample 1).cfg.memBytes ≤ (jumpTarget 0x3FFFFFF).toNat := by decide

theorem witness_JalLinksTheIncrementedPcAndJumps : bits 0x0C000008 31 26 = 0x03 ∧
    (8 : BitVec 26).toNat = bits 0x0C000008 25 0 := by decide

/-- A hit, a miss with the cache on, a miss with it off, and the last and the first address in and
out of range. -/
theorem witness_LwLoadsWhatTheCacheReadGives : bits 0x8C220004 31 26 = 0x23 ∧
    cachedWord 256 (sample 1) = some 7 ∧ cachedWord 260 (sample 1) = none ∧
    (sample 1).cacheEnabled = true ∧ (mk [] [] 0).cacheEnabled = false ∧
    effectiveAddress (sample 1) 3 4095 < (sample 1).cfg.memBytes ∧
    (sample 1).cfg.memBytes ≤ effectiveAddress (sample 1) 3 4096 := by decide

theorem witness_LwLoadsTheMemoryWord : StateInv (sample 1) ∧
    effectiveAddress (sample 1) 1 0 < (sample 1).cfg.memBytes :=
  ⟨sample_inv _ (by decide), by decide⟩

theorem witness_SwStoresTheWord : bits 0xAC240004 31 26 = 0x2B ∧
    effectiveAddress (sample 1) 3 4095 < (sample 1).cfg.memBytes ∧
    (sample 1).cfg.memBytes ≤ effectiveAddress (sample 1) 3 4096 ∧
    (sample 1).cacheEnabled = true ∧ (mk [] [] 0).cacheEnabled = false := by decide

theorem witness_LoadAfterStoreReturnsTheStoredWord : StateInv (sample 1) ∧
    effectiveAddress (sample 1) 1 4 < (sample 1).cfg.memBytes ∧
    effectiveAddress (sample 1) 1 7 / 4 = effectiveAddress (sample 1) 1 4 / 4 :=
  ⟨sample_inv _ (by decide), by decide, by decide⟩

theorem witness_StoreIsSeenByTheNextFetch : ∃ t, exec (.sw 3 4 8) (sample 1) = .next t ∧
    (sample 1).running = true ∧ (sample 1).pc.toNat < (sample 1).cfg.memBytes ∧
    effectiveAddress (sample 1) 3 8 / 4 = (sample 1).pc.toNat / 4 :=
  ⟨_, rfl, by decide, by decide, by decide⟩

theorem witness_BusReadsAndWritesTheCell : 4095 / 4 < (sample 1).cfg.memWords ∧
    ¬ 4096 / 4 < (sample 1).cfg.memWords := by decide

/-- A hit, a miss, a disabled read, and a failing read with the cache on. -/
theorem witness_CacheReadHitsMissesOrFails : (sample 1).cacheEnabled = true ∧
    lookupKey (sample 1).cmap (4 * (256 / 4)) = some 7 ∧
    lookupKey (sample 1).cmap (4 * (4095 / 4)) = none ∧ 4095 / 4 < (sample 1).cfg.memWords ∧
    (mk [] [] 0).cacheEnabled = false ∧
    lookupKey (sample 1).cmap (4 * (4096 / 4)) = none ∧ ¬ 4096 / 4 < (sample 1).cfg.memWords := by
  decide

theorem witness_CacheWriteIsWriteThrough : 4095 / 4 < (sample 1).cfg.memWords ∧
    ¬ 4096 / 4 < (sample 1).cfg.memWords ∧ (sample 1).cacheEnabled = true ∧
    (mk [] [] 0).cacheEnabled = false := by decide

theorem witness_SecondReadHitsAndDisablingClears : (sample 1).cacheEnabled = true ∧
    lookupKey (sample 1).cmap (4 * (4095 / 4)) = none ∧ 4095 / 4 < (sample 1).cfg.memWords ∧
    (∃ v t, cacheRead 256 (sample 1) = .ok (v, t)) ∧ ∃ t, cacheWrite 256 3 (sample 1) = .ok t :=
  ⟨by decide, by decide, by decide, ⟨_, _, rfl⟩, _, rfl⟩

theorem witness_CacheHoldsAtMostOneEntryPerMemoryWord : StateInv (sample 1) :=
  sample_inv _ (by decide)

theorem witness_CanonicalMemoriesThatReadAlikeAreEqual :
    Memory.wf [(2, 1), (64, 7)] = true ∧ Memory.wf ((Memory.write [(64, 7)] 2 1).write 3 0) = true ∧
    ∀ i, Memory.read [(2, 1), (64, 7)] i = ((Memory.write [(64, 7)] 2 1).write 3 0).read i :=
  ⟨by decide, by decide, fun _ => rfl⟩

/-- Two states of the invariant that differ in the cache. -/
theorem witness_CacheStateDoesNotAffectARun : StateInv (sample 1) ∧
    StateInv (cacheSetState 0 (sample 1)) ∧ SameVisible (sample 1) (cacheSetState 0 (sample 1)) ∧
    (sample 1).cmap ≠ (cacheSetState 0 (sample 1)).cmap :=
  ⟨sample_inv _ (by decide), by constructor <;> decide, ⟨rfl, rfl, rfl, rfl, rfl, rfl⟩, by decide⟩

theorem witness_CacheStateDoesNotAffectAStep : ∃ s t, StateInv s ∧ StateInv t ∧ SameVisible s t :=
  ⟨_, _, witness_CacheStateDoesNotAffectARun.1, witness_CacheStateDoesNotAffectARun.2.1,
    witness_CacheStateDoesNotAffectARun.2.2.1⟩

theorem witness_CacheInstructionChangesNoLaterValue : StateInv (sample 1) := sample_inv _ (by decide)

/-- Each code at the boundaries of its range: 0, 1, 2, 3 and 31. -/
theorem witness_CacheSetsTheControllerByItsCode : bits 0xE8000001 31 26 = 0x3A ∧
    (1 : BitVec 5).toNat = bits 0xE8000001 4 0 ∧ (0 : BitVec 5).toNat = 0 ∧
    (2 : BitVec 5).toNat = 2 ∧ 3 ≤ (3 : BitVec 5).toNat ∧ 3 ≤ (31 : BitVec 5).toNat ∧
    (mk [] [] 0).cacheEnabled = false ∧ (mk [] [] 0).cmap = [] ∧
    4095 < (sample 1).cfg.memBytes := by decide

/-- Codes 0, 2 and 7 with the cache on, and code 1 with it off. -/
theorem witness_CacheInstructionsOwnFetchComesFirst :
    StateInv (sample 0xE8000000) ∧ (sample 0xE8000000).running = true ∧
    (sample 0xE8000000).pc.toNat < (sample 0xE8000000).cfg.memBytes ∧
    decode .op05 ((sample 0xE8000000).wordAt 8) = .ok (.cache 0) ∧
    decode .op05 ((sample 0xE8000002).wordAt 8) = .ok (.cache 2) ∧
    decode .op05 ((sample 0xE8000007).wordAt 8) = .ok (.cache 7) ∧
    (StateInv (mk [] [(2, 0xE8000001)] 8) ∧ (mk [] [(2, 0xE8000001)] 8).cacheEnabled = false ∧
      decode .op05 ((mk [] [(2, 0xE8000001)] 8).wordAt 8) = .ok (.cache 1)) :=
  ⟨sample_inv _ (by decide), by decide, by decide, by decide, by decide, by decide,
    by constructor <;> decide, by decide, by decide⟩

theorem witness_HaltStopsTheCore : bits 0xFFFFFFFF 31 26 = 0x3F := by decide

end Sys2Proof.Tests
end

-- The memory bus and the cache controller (20_memory.md R42 to R57)
section
/-! PROOFS. The memory bus and the write-through cache controller as 20_memory.md states them. The
laws of the bus write and of the cache's lookup come first, then the statements. -/

namespace Sys2Proof.Machine

variable {s t : State} {addr : Nat} {v : Word}

/-- The range test fails exactly outside the array (20_memory.md R43). -/
theorem inRange_eq_false_iff (c : Config) (addr : Nat) :
    inRange c addr = false ↔ ¬ addr / 4 < c.memWords := by
  simp [inRange]

/-! The bus write -/

/-- The bus write in range (20_memory.md R45). -/
theorem busWrite_inRange (h : inRange s.cfg addr = true) :
    busWrite addr v s =
      .ok ((s.setMem (s.mem.write (addr / 4) v)).logEvent (.wr (addr / 4) v)) := by
  simp [busWrite, h]

theorem busWrite_outOfRange (h : inRange s.cfg addr = false) :
    busWrite addr v s = .error .outOfRangeAccess := by
  simp [busWrite, h]

/-- In range the cache's write is the bus write that follows the update of the entry
(20_memory.md R54). -/
theorem cacheWrite_eq_busWrite (h : inRange s.cfg addr = true) :
    cacheWrite addr v s = busWrite addr v (cacheFill addr v s) := by
  simp [cacheWrite, h]

/-- A bus write replaces the Word at every byte address of its cell and at no other. -/
theorem busWrite_wordAt (h : busWrite addr v s = .ok t) (a : Nat) :
    t.wordAt a = if a / 4 = addr / 4 then v else s.wordAt a := by
  cases hr : inRange s.cfg addr with
  | false => rw [busWrite_outOfRange hr] at h; cases h
  | true =>
    rw [busWrite_inRange hr] at h; cases h
    exact Memory.read_write s.mem (addr / 4) (a / 4) v

/-- A bus write changes nothing but the memory and the bus history, which it extends by one wr. -/
theorem busWrite_frame (h : busWrite addr v s = .ok t) :
    t.busEvents = s.busEvents ++ [.wr (addr / 4) v] ∧ RegsUnchangedBut [] s t ∧ t.pc = s.pc ∧
      CacheUnchanged s t ∧ RunUnchanged s t := by
  cases hr : inRange s.cfg addr with
  | false => rw [busWrite_outOfRange hr] at h; cases h
  | true =>
    rw [busWrite_inRange hr] at h; cases h
    exact ⟨rfl, fun _ _ => rfl, rfl, ⟨rfl, rfl⟩, rfl, rfl, rfl⟩

/-! The cache's lookup and fill -/

theorem cachedWord_enabled (h : s.cacheEnabled = true) :
    cachedWord addr s = lookupKey s.cmap (4 * (addr / 4)) := by
  simp [cachedWord, h, tag]

theorem cachedWord_disabled (h : s.cacheEnabled = false) : cachedWord addr s = none := by
  simp [cachedWord, h]

/-- The cache has no Word for an address exactly when it is disabled or the entry is absent. -/
theorem cachedWord_eq_none_iff :
    cachedWord addr s = none ↔
      (s.cacheEnabled = true → lookupKey s.cmap (4 * (addr / 4)) = none) := by
  cases h : s.cacheEnabled with
  | false => simp [cachedWord_disabled h]
  | true => simp [cachedWord_enabled h]

/-- Setting an entry leaves registers, run state and memory alone. -/
theorem cacheFill_frame (addr : Nat) (v : Word) (s : State) :
    RegsUnchangedBut [] s (cacheFill addr v s) ∧ MemoryUnchanged s (cacheFill addr v s) ∧
      RunUnchanged s (cacheFill addr v s) :=
  ⟨fun _ _ => cacheFill_reg _, fun _ => cacheFill_wordAt _,
    cacheFill_running, cacheFill_stopCause, cacheFill_cfg⟩

/-! The statements -/

/-- Settles O40: in range a read or a write is the bus's law for that operation, outside the array
both fail. -/
theorem busReadsAndWritesTheCell : Obligations.BusReadsAndWritesTheCell := by
  refine ⟨fun addr s hlt => ?read, fun addr v s hlt => ?write, fun addr v s hge => ?failure⟩
  case read => exact ⟨_, busRead_inRange ((inRange_iff _ _).2 hlt), rfl⟩
  case write =>
    have hw := busWrite_inRange (v := v) ((inRange_iff s.cfg addr).2 hlt)
    exact ⟨_, hw, busWrite_wordAt hw, busWrite_frame hw⟩
  case failure =>
    have hr := (inRange_eq_false_iff s.cfg addr).2 hge
    exact ⟨busRead_outOfRange hr, busWrite_outOfRange hr⟩

/-- Settles O41: by the lookup, which hits only when the cache is enabled and the entry present;
every other read is the bus's, filled in when the cache is enabled. -/
theorem cacheReadHitsMissesOrFails : Obligations.CacheReadHitsMissesOrFails := by
  refine ⟨fun addr s v hen hl => ?hit, fun addr s hen hl hlt => ?miss,
    fun addr s hdis hlt => ?disabled, fun addr s hnone hge => ?failure⟩
  case hit => exact cacheRead_hit ((cachedWord_enabled hen).trans hl)
  case miss =>
    have hread := cacheRead_miss ((cachedWord_enabled hen).trans hl) ((inRange_iff _ _).2 hlt)
    obtain ⟨hregs, hmem, hrun⟩ :=
      cacheFill_frame addr (s.wordAt addr) (s.logEvent (.rd (addr / 4)))
    exact ⟨_, hread, cacheFill_lookup hen, cacheFill_busEvents, cacheFill_cacheEnabled.trans hen,
      hregs, cacheFill_pc, hmem, hrun⟩
  case disabled =>
    have hread := cacheRead_miss (cachedWord_disabled hdis) ((inRange_iff _ _).2 hlt)
    rw [hread, cacheFill_disabled (s := s.logEvent _) hdis]
    rfl
  case failure =>
    exact cacheRead_outOfRange (cachedWord_eq_none_iff.2 hnone) ((inRange_eq_false_iff _ _).2 hge)

/-- Settles O42: in range the write is a bus write after the update of the entry, so the memory is
the bus write's and the mapping the updated one. -/
theorem cacheWriteIsWriteThrough : Obligations.CacheWriteIsWriteThrough := by
  refine ⟨fun addr v s hlt => ?write, fun addr v s hge =>
    cacheWrite_outOfRange ((inRange_eq_false_iff _ _).2 hge)⟩
  have hr := (inRange_iff s.cfg addr).2 hlt
  have hw : busWrite addr v (cacheFill addr v s) = .ok _ :=
    busWrite_inRange (by rwa [cacheFill_cfg])
  obtain ⟨hregs, hmem, hrun, hstop, hcfg⟩ := cacheFill_frame addr v s
  obtain ⟨hev, hregs', hpc, ⟨hen, hmap⟩, hrun', hstop', hcfg'⟩ := busWrite_frame hw
  refine ⟨_, (cacheWrite_eq_busWrite hr).trans hw, fun a => ?_, fun h k => ?_, fun h => ?_,
    hen.trans cacheFill_cacheEnabled, ?_, fun q hq => (hregs' q hq).trans (hregs q hq),
    hpc.trans cacheFill_pc, hrun'.trans hrun, hstop'.trans hstop, hcfg'.trans hcfg⟩
  · rw [busWrite_wordAt hw, hmem]
  · rw [hmap]; exact cacheFill_lookup h k
  · rw [hmap, cacheFill_disabled h]
  · rw [hev, cacheFill_busEvents]

end Sys2Proof.Machine
end

-- The opcode table (30_encoding.md R90 to R95)
section
/-! PROOFS. The decoder row by row as 30_encoding.md R90 states it. A row's mask test is a test of the
opcode field and, in format R, of the funct field; the decoder answers the row by the same test. -/

namespace Sys2Proof.Encoding

variable {b : BneOpcode} {w m : Word} {i : Instr}

/-! The mask test of a row -/

/-- The mask of the formats I, J, C and H keeps the opcode and nothing else. -/
theorem and_opcodeMask_eq_iff (op : Nat) (hm : m.toNat = op * 2 ^ 26) :
    w &&& 0xFC000000#32 = m ↔ bits w 31 26 = op := by
  have := w.isLt
  rw [BitVec.toNat_eq, and_mask26, hm, bits]
  omega

/-- The mask of format R keeps the opcode and the funct and nothing else. A row of format R has
opcode 0, so its match is its funct. -/
theorem and_functMask_eq_iff (f : Nat) (hm : m.toNat = f) (hf : f < 64) :
    w &&& 0xFC00003F#32 = m ↔ bits w 31 26 = 0 ∧ bits w 5 0 = f := by
  have := w.isLt
  rw [BitVec.toNat_eq, and_maskR, hm, bits, bits]
  omega

/-! What the decoder answers for the opcode and funct of a row -/

/-- BNE_OPCODE is 0x04 or 0x05 (30_encoding.md R92), neither of them the opcode of another row. -/
theorem ne_bneValue {n : Nat} (h4 : n ≠ 0x04) (h5 : n ≠ 0x05) : n ≠ b.value := by
  cases b <;> assumption

theorem decode_add (ho : bits w 31 26 = 0x00) (hf : bits w 5 0 = 0x20) :
    decode b w = .ok (.add (rsField w) (rtField w) (rdField w)) := by
  simp [decode, decodeFunct, ho, hf]

theorem decode_sub (ho : bits w 31 26 = 0x00) (hf : bits w 5 0 = 0x22) :
    decode b w = .ok (.sub (rsField w) (rtField w) (rdField w)) := by
  simp [decode, decodeFunct, ho, hf]

theorem decode_slt (ho : bits w 31 26 = 0x00) (hf : bits w 5 0 = 0x2A) :
    decode b w = .ok (.slt (rsField w) (rtField w) (rdField w)) := by
  simp [decode, decodeFunct, ho, hf]

theorem decode_addi (ho : bits w 31 26 = 0x08) :
    decode b w = .ok (.addi (rsField w) (rtField w) (imm16Field w)) := by
  simp [decode, ho]

theorem decode_bne (ho : bits w 31 26 = b.value) :
    decode b w = .ok (.bne (rsField w) (rtField w) (imm16Field w)) := by
  cases b <;> simp [decode, ho, BneOpcode.value]

theorem decode_j (ho : bits w 31 26 = 0x02) : decode b w = .ok (.j (target26Field w)) := by
  simp [decode, ho, ne_bneValue]

theorem decode_jal (ho : bits w 31 26 = 0x03) : decode b w = .ok (.jal (target26Field w)) := by
  simp [decode, ho, ne_bneValue]

theorem decode_lw (ho : bits w 31 26 = 0x23) :
    decode b w = .ok (.lw (rsField w) (rtField w) (imm16Field w)) := by
  simp [decode, ho, ne_bneValue]

theorem decode_sw (ho : bits w 31 26 = 0x2B) :
    decode b w = .ok (.sw (rsField w) (rtField w) (imm16Field w)) := by
  simp [decode, ho, ne_bneValue]

theorem decode_cache (ho : bits w 31 26 = 0x3A) : decode b w = .ok (.cache (code5Field w)) := by
  simp [decode, ho, ne_bneValue]

theorem decode_halt (ho : bits w 31 26 = 0x3F) : decode b w = .ok .halt := by
  simp [decode, ho, ne_bneValue]

/-! The row of a decoded Word -/

/-- A decoded Word has the opcode of its instruction's row and, in format R, the funct. -/
theorem fields_of_decode (h : decode b w = .ok i) :
    bits w 31 26 = rowOpcode b i ∧ ∀ f, rowFunct i = some f → bits w 5 0 = f := by
  obtain ⟨ho, hf, rfl⟩ | ⟨ho, hf, rfl⟩ | ⟨ho, hf, rfl⟩ | ⟨ho, rfl⟩ | ⟨ho, rfl⟩ | ⟨ho, rfl⟩ |
    ⟨ho, rfl⟩ | ⟨ho, rfl⟩ | ⟨ho, rfl⟩ | ⟨ho, rfl⟩ | ⟨ho, rfl⟩ := decode_cases h
  case inl | inr.inl | inr.inr.inl => exact ⟨ho, fun _ h => (Option.some.inj h) ▸ hf⟩
  all_goals exact ⟨ho, nofun⟩

theorem opcode_of_decode (h : decode b w = .ok i) : bits w 31 26 = rowOpcode b i :=
  (fields_of_decode h).1

/-- In format R the opcode is 0 and the funct is the row's. -/
theorem funct_of_decode {f : Nat} (h : decode b w = .ok i) (ho : rowOpcode b i = 0)
    (hf : rowFunct i = some f) : bits w 31 26 = 0 ∧ bits w 5 0 = f :=
  ⟨(opcode_of_decode h).trans ho, (fields_of_decode h).2 f hf⟩

/-! The statement -/

/-- Settles O6: each row's mask test is the test of the fields that the decoder makes for the row, and
a decoded Word has its row's fields. -/
theorem decodeIsTheOpcodeTable : Obligations.DecodeIsTheOpcodeTable := by
  intro b w
  refine ⟨?add, ?sub, ?slt, ?addi, ?bne, ?j, ?jal, ?lw, ?sw, ?cache, ?halt⟩
  case add =>
    rw [and_functMask_eq_iff 0x20 rfl (by decide)]
    exact ⟨fun ⟨_, _, _, h⟩ => funct_of_decode h rfl rfl, fun h => ⟨_, _, _, decode_add h.1 h.2⟩⟩
  case sub =>
    rw [and_functMask_eq_iff 0x22 rfl (by decide)]
    exact ⟨fun ⟨_, _, _, h⟩ => funct_of_decode h rfl rfl, fun h => ⟨_, _, _, decode_sub h.1 h.2⟩⟩
  case slt =>
    rw [and_functMask_eq_iff 0x2A rfl (by decide)]
    exact ⟨fun ⟨_, _, _, h⟩ => funct_of_decode h rfl rfl, fun h => ⟨_, _, _, decode_slt h.1 h.2⟩⟩
  case addi =>
    rw [and_opcodeMask_eq_iff 0x08 rfl]
    exact ⟨fun ⟨_, _, _, h⟩ => opcode_of_decode h, fun h => ⟨_, _, _, decode_addi h⟩⟩
  case bne =>
    rw [and_opcodeMask_eq_iff b.value (by cases b <;> rfl)]
    exact ⟨fun ⟨_, _, _, h⟩ => opcode_of_decode h, fun h => ⟨_, _, _, decode_bne h⟩⟩
  case j =>
    rw [and_opcodeMask_eq_iff 0x02 rfl]
    exact ⟨fun ⟨_, h⟩ => opcode_of_decode h, fun h => ⟨_, decode_j h⟩⟩
  case jal =>
    rw [and_opcodeMask_eq_iff 0x03 rfl]
    exact ⟨fun ⟨_, h⟩ => opcode_of_decode h, fun h => ⟨_, decode_jal h⟩⟩
  case lw =>
    rw [and_opcodeMask_eq_iff 0x23 rfl]
    exact ⟨fun ⟨_, _, _, h⟩ => opcode_of_decode h, fun h => ⟨_, _, _, decode_lw h⟩⟩
  case sw =>
    rw [and_opcodeMask_eq_iff 0x2B rfl]
    exact ⟨fun ⟨_, _, _, h⟩ => opcode_of_decode h, fun h => ⟨_, _, _, decode_sw h⟩⟩
  case cache =>
    rw [and_opcodeMask_eq_iff 0x3A rfl]
    exact ⟨fun ⟨_, h⟩ => opcode_of_decode h, fun h => ⟨_, decode_cache h⟩⟩
  case halt =>
    rw [and_opcodeMask_eq_iff 0x3F rfl]
    exact ⟨opcode_of_decode, decode_halt⟩

end Sys2Proof.Encoding
end

-- The step (40_fetch_step.md R110 to R113)
section
/-! PROOFS. The step as 40_fetch_step.md R110 states it, branch by branch. The laws of the guard's stop
and of the fetch with pc in memory come first, then the statements. -/

namespace Sys2Proof.Machine

variable {s : State}

/-! The guard -/

/-- The guard's test fails exactly with pc outside memory (40_fetch_step.md R111). -/
theorem pcInRange_eq_false_iff (s : State) :
    pcInRange s = false ↔ ¬ s.pc.toNat < s.cfg.memBytes := by
  simp [pcInRange]

/-- A running core with pc outside memory makes the guard's stop (40_fetch_step.md R111). -/
theorem step_pcOutside (h : s.running = true) (hp : ¬ s.pc.toNat < s.cfg.memBytes) :
    step s = .next (s.stop .pcOutOfRange) :=
  step_guard h ((pcInRange_eq_false_iff s).2 hp)

/-- A stop writes nothing but running and stop_cause (10_state.md R25, R26). -/
theorem stop_frame (c : StopCause) (s : State) :
    RegsUnchangedBut [] s (s.stop c) ∧ (s.stop c).pc = s.pc ∧ MemoryUnchanged s (s.stop c) ∧
      CacheUnchanged s (s.stop c) ∧ NoBusEvent s (s.stop c) ∧ (s.stop c).cfg = s.cfg :=
  ⟨fun _ _ => rfl, rfl, fun _ => rfl, ⟨rfl, rfl⟩, rfl, rfl⟩

/-! The fetch -/

/-- With pc in memory the fetch is the cache read at pc, which succeeds, and then the increment
(40_fetch_step.md R112, R113). -/
theorem fetch_eq_cacheRead_increment (hp : s.pc.toNat < s.cfg.memBytes) :
    ∃ w u, cacheRead s.pc.toNat s = .ok (w, u) ∧ fetch s = .ok (w, u.setPc (s.pc + 4)) := by
  obtain ⟨w, t, hf⟩ := fetch_ok ((pcInRange_iff s).2 hp)
  obtain ⟨u, hu, rfl⟩ := fetch_cases hf
  exact ⟨w, u, hu, hf⟩

/-! The statements -/

/-- Settles O12: a stopped core answers the fault, the guard stops a running core with pc outside
memory, and else the fetch succeeds and the step goes by what the Word decodes to. -/
theorem stepIsGuardFetchIncrementExecute : Obligations.StepIsGuardFetchIncrementExecute := by
  refine ⟨fun s t hstop => ?stopped, fun s hrun hout => ?guard, fun s hrun hin => ?fetched⟩
  case stopped => rw [step_stopped hstop]; nofun
  case guard => exact step_pcOutside hrun hout
  case fetched =>
    obtain ⟨w, u, hu, hf⟩ := fetch_eq_cacheRead_increment hin
    exact ⟨w, u, hu, fun _ hd => step_of_instr hrun hin hf hd,
      fun _ hd => step_of_noOp hrun hin hf hd⟩

/-- Settles O15: the step is the guard's stop, and a stop writes nothing but running and
stop_cause. -/
theorem pcOutsideMemoryStopsGracefully : Obligations.PcOutsideMemoryStopsGracefully := by
  intro s hrun hout
  exact ⟨_, step_pcOutside hrun (Nat.not_lt.2 hout), s.stop_running _, s.stop_stopCause _,
    stop_frame .pcOutOfRange s⟩

end Sys2Proof.Machine
end

-- The arithmetic instructions and the no-op of format R (41_alu.md R130 to R140)
section
/-! PROOFS. ADD, SUB and ADDI as 41_alu.md R132 to R135 state them, and the no-op of R140. The laws of
the operand fields, of the no-op's decoding, of the register write and of the ALU come first, then the
statements. -/

namespace Sys2Proof.Encoding

variable {b : BneOpcode} {w : Word} {r : RegIdx} {imm : BitVec 16}

/-! The operand fields -/

/-- The register a field names is the one whose number is the field's value (30_encoding.md R82). -/
theorem regIdx_ofNat_eq {n : Nat} (h : r.val = n) : Fin.ofNat 32 n = r := by
  subst h; exact Fin.ofNat_val_eq_self r

theorem rsField_eq (h : r.val = bits w 25 21) : rsField w = r := regIdx_ofNat_eq h

theorem rtField_eq (h : r.val = bits w 20 16) : rtField w = r := regIdx_ofNat_eq h

theorem rdField_eq (h : r.val = bits w 15 11) : rdField w = r := regIdx_ofNat_eq h

theorem imm16Field_eq (h : imm.toNat = bits w 15 0) : imm16Field w = imm := by
  rw [imm16Field, ← h, BitVec.ofNat_toNat, BitVec.setWidth_eq]

/-! The no-op of format R -/

/-- Opcode 0 with a funct of no row is the unknown-funct no-op (30_encoding.md R95). -/
theorem decode_unknownFunct (ho : bits w 31 26 = 0x00) (hadd : bits w 5 0 ≠ 0x20)
    (hsub : bits w 5 0 ≠ 0x22) (hslt : bits w 5 0 ≠ 0x2A) :
    decode b w = .error (.unknownFunct (bits w 5 0)) := by
  simp [decode, decodeFunct, ho, hadd, hsub, hslt]

end Sys2Proof.Encoding

namespace Sys2Proof.Machine

open Sys2Proof.Encoding

/-! The register write and the ALU -/

/-- A register write changes no other register and no other piece of state (41_alu.md R131). -/
theorem setReg_frame (r : RegIdx) (v : Word) (s : State) :
    RegsUnchangedBut [r] s (s.setReg r v) ∧ (s.setReg r v).pc = s.pc ∧
      MemoryUnchanged s (s.setReg r v) ∧ CacheUnchanged s (s.setReg r v) ∧
      NoBusEvent s (s.setReg r v) ∧ RunUnchanged s (s.setReg r v) :=
  ⟨fun _ hq => s.setReg_reg_ne v (List.mem_singleton.not.1 hq), rfl, fun _ => rfl, ⟨rfl, rfl⟩, rfl,
    rfl, rfl, rfl⟩

theorem aluAdd_toNat (x y : Word) : (aluAdd x y).toNat = (x.toNat + y.toNat) % 2 ^ 32 :=
  BitVec.toNat_add x y

/-- The difference is reduced as an integer, so it is right also where x is below y
(41_alu.md R130). -/
theorem aluSub_toNat (x y : Word) :
    ((aluSub x y).toNat : Int) = ((x.toNat : Int) - y.toNat) % 2 ^ 32 := by
  have := x.isLt
  have := y.isLt
  rw [aluSub, BitVec.toNat_sub]
  omega

/-- The immediate enters the sum as its unsigned number (30_encoding.md R88, 41_alu.md R135). -/
theorem aluAdd_zext16_toNat (x : Word) (imm : BitVec 16) :
    (aluAdd x (BitVec.ofNat 32 (zext16 imm))).toNat = (x.toNat + imm.toNat) % 2 ^ 32 := by
  rw [aluAdd_toNat, BitVec.toNat_ofNat, zext16, Nat.add_mod_mod]

/-! The statements -/

/-- Settles O16: the Word decodes to the unknown-funct no-op, whose step ends in the state after the
fetch. -/
theorem unknownFunctIsANoOp : Obligations.UnknownFunctIsANoOp := by
  intro s w s1 hrun hin hf ho hadd hsub hslt
  exact ⟨step_of_noOp hrun hin hf (decode_unknownFunct ho hadd hsub hslt), fetched_of_fetch hf⟩

/-- Settles O28: the execution is the write of the ALU's sum to rd. -/
theorem addWritesTheSum : Obligations.AddWritesTheSum := by
  refine ⟨fun b w rs rt rd ho hfunct hrs hrt hrd => ?decoded, fun rs rt rd s => ?executed⟩
  case decoded => rw [decode_add ho hfunct, rsField_eq hrs, rtField_eq hrt, rdField_eq hrd]
  case executed =>
    refine ⟨s.setReg rd (aluAdd (s.reg rs) (s.reg rt)), rfl, ?_, setReg_frame rd _ s⟩
    rw [State.setReg_reg_self, aluAdd_toNat]

/-- Settles O29: the execution is the write of the ALU's difference to rd. -/
theorem subWritesTheDifference : Obligations.SubWritesTheDifference := by
  refine ⟨fun b w rs rt rd ho hfunct hrs hrt hrd => ?decoded, fun rs rt rd s => ?executed⟩
  case decoded => rw [decode_sub ho hfunct, rsField_eq hrs, rtField_eq hrt, rdField_eq hrd]
  case executed =>
    refine ⟨s.setReg rd (aluSub (s.reg rs) (s.reg rt)), rfl, ?_, setReg_frame rd _ s⟩
    rw [State.setReg_reg_self, aluSub_toNat]

/-- Settles O31: the execution is the write to rt of the ALU's sum with the zero-extended
immediate. -/
theorem addiWritesTheSumWithTheUnsignedImmediate :
    Obligations.AddiWritesTheSumWithTheUnsignedImmediate := by
  refine ⟨fun b w rs rt imm ho hrs hrt himm => ?decoded, fun rs rt imm s => ?executed⟩
  case decoded => rw [decode_addi ho, rsField_eq hrs, rtField_eq hrt, imm16Field_eq himm]
  case executed =>
    refine ⟨s.setReg rt (aluAdd (s.reg rs) (BitVec.ofNat 32 (zext16 imm))), rfl, ?_,
      setReg_frame rt _ s⟩
    rw [State.setReg_reg_self, aluAdd_zext16_toNat]

end Sys2Proof.Machine
end

-- Control transfer (42_control.md R151 to R155)
section
/-! PROOFS. BNE, J and JAL as 42_control.md R151 to R155 state them. The laws of the target field, of
the write of pc, of the guard after it and of BNE's choice come first, then the statements. -/

namespace Sys2Proof.Encoding

theorem target26Field_eq {w : Word} {target : BitVec 26} (h : target.toNat = bits w 25 0) :
    target26Field w = target := by
  rw [target26Field, ← h, BitVec.ofNat_toNat, BitVec.setWidth_eq]

end Sys2Proof.Encoding

namespace Sys2Proof.Machine

open Sys2Proof.Encoding

variable {s : State} {rs rt : RegIdx} {imm : BitVec 16}

/-! The write of pc and the guard after it -/

/-- A write of pc changes no register and no other piece of state. -/
theorem setPc_frame (v : Word) (s : State) :
    RegsUnchangedBut [] s (s.setPc v) ∧ MemoryUnchanged s (s.setPc v) ∧
      CacheUnchanged s (s.setPc v) ∧ NoBusEvent s (s.setPc v) ∧ RunUnchanged s (s.setPc v) :=
  ⟨fun _ _ => rfl, fun _ => rfl, ⟨rfl, rfl⟩, rfl, rfl, rfl, rfl⟩

/-- A target outside memory ends the run at the guard of the next step (40_fetch_step.md R111). -/
theorem step_setPc_outside {v : Word} (hrun : s.running = true)
    (hout : s.cfg.memBytes ≤ (s.setPc v).pc.toNat) :
    step (s.setPc v) = .next ((s.setPc v).stop .pcOutOfRange) :=
  step_pcOutside hrun (Nat.not_lt.2 hout)

/-! The targets -/

/-- The jump target as the spec writes it, the field shifted left by two (30_encoding.md R89). -/
theorem jumpTarget_toNat_shift (target : BitVec 26) :
    (jumpTarget target).toNat = target.toNat * 2 ^ 2 := by
  rw [jumpTarget_toNat]
  omega

/-- The largest branch distance is 2^18 - 4, so a pc at most 2^32 - 2^18 does not wrap. -/
theorem branchTarget_toNat_of_memWords_le (hmem : s.cfg.memWords ≤ 2 ^ 30 - 2 ^ 16)
    (hpc : s.pc.toNat ≤ s.cfg.memBytes) (imm : BitVec 16) :
    (branchTarget s.pc imm).toNat = s.pc.toNat + 4 * imm.toNat := by
  have := imm.isLt
  rw [Config.memBytes] at hpc
  rw [branchTarget_toNat, Nat.mod_eq_of_lt (by omega)]

/-! BNE's choice -/

/-- The pc that BNE leaves, taken or not (42_control.md R151). -/
def bnePc (rs rt : RegIdx) (imm : BitVec 16) (s : State) : Word :=
  if wordsDiffer (s.reg rs) (s.reg rt) then branchTarget s.pc imm else s.pc

theorem bnePc_of_ne (h : s.reg rs ≠ s.reg rt) : bnePc rs rt imm s = branchTarget s.pc imm :=
  if_pos ((wordsDiffer_iff _ _).2 h)

theorem bnePc_of_eq (h : s.reg rs = s.reg rt) : bnePc rs rt imm s = s.pc :=
  if_neg (mt (wordsDiffer_iff _ _).1 (not_not_intro h))

/-- BNE is one write of pc: when not taken it writes the pc that stands there. -/
theorem exec_bne_eq_setPc (rs rt : RegIdx) (imm : BitVec 16) (s : State) :
    exec (.bne rs rt imm) s = .next (s.setPc (bnePc rs rt imm s)) := by
  rw [exec, execBne, bnePc]
  split
  case isTrue => rfl
  case isFalse => rfl

/-! The statements -/

/-- Settles O32: the execution is the write of BNE's pc, which is the branch target exactly when the
registers differ. -/
theorem bneBranchesExactlyWhenTheRegistersDiffer :
    Obligations.BneBranchesExactlyWhenTheRegistersDiffer := by
  refine ⟨fun b w rs rt imm ho hrs hrt himm => ?decoded, fun rs rt imm s => ?executed⟩
  case decoded => rw [decode_bne ho, rsField_eq hrs, rtField_eq hrt, imm16Field_eq himm]
  case executed =>
    refine ⟨s.setPc (bnePc rs rt imm s), exec_bne_eq_setPc rs rt imm s, fun hne => ?taken,
      bnePc_of_eq, fun hmem hpc hne => ?unreduced, step_setPc_outside, setPc_frame _ s⟩
    case taken => rw [State.setPc_pc, bnePc_of_ne hne, branchTarget_toNat]
    case unreduced =>
      rw [State.setPc_pc, bnePc_of_ne hne, branchTarget_toNat_of_memWords_le hmem hpc]

/-- Settles O33: the execution is the write of the jump target to pc. -/
theorem jumpGoesToFourTimesTheTarget : Obligations.JumpGoesToFourTimesTheTarget := by
  refine ⟨fun b w target ho htarget => ?decoded, fun target s => ?executed⟩
  case decoded => rw [decode_j ho, target26Field_eq htarget]
  case executed =>
    exact ⟨s.setPc (jumpTarget target), rfl, jumpTarget_toNat_shift target, step_setPc_outside,
      setPc_frame _ s⟩

/-- Settles O34: the execution is the write of the incremented pc to the link register, and then the
write of the jump target to pc, which no register or other piece of state sees. -/
theorem jalLinksTheIncrementedPcAndJumps : Obligations.JalLinksTheIncrementedPcAndJumps := by
  refine ⟨fun b w target ho htarget => ?decoded, fun target s => ?executed⟩
  case decoded => rw [decode_jal ho, target26Field_eq htarget]
  case executed =>
    obtain ⟨hregs, -, hmem, hcache, hbus, hrun⟩ := setReg_frame linkReg s.pc s
    exact ⟨(s.setReg linkReg s.pc).setPc (jumpTarget target), rfl, s.setReg_reg_self linkReg s.pc,
      jumpTarget_toNat_shift target, hregs, hmem, hcache, hbus, hrun⟩

end Sys2Proof.Machine
end

-- Loads and stores (43_loadstore.md R165 to R173)
section
/-! PROOFS. LW and SW as 43_loadstore.md R167 to R171 state them. The laws of the effective address, of
the read that follows a write, of LW and SW in and out of range and of the CACHE instructions between
them come first, then the statements. -/

namespace Sys2Proof.Machine

open Sys2Proof.Encoding

variable {s t : State} {rs rt : RegIdx} {imm : BitVec 16} {addr a : Nat} {v : Word}

/-! The effective address -/

/-- The range test fails from MEM_BYTES on (43_loadstore.md R168). -/
theorem inRange_eq_false_of_memBytes_le {c : Config} (h : c.memBytes ≤ addr) :
    inRange c addr = false :=
  Bool.eq_false_iff.2 fun hr => Nat.not_lt.2 h ((inRange_iff_lt_memBytes c addr).1 hr)

theorem div_four_lt_memWords {c : Config} (h : addr < c.memBytes) : addr / 4 < c.memWords :=
  (inRange_iff c addr).1 ((inRange_iff_lt_memBytes c addr).2 h)

/-- The address depends on the registers alone (43_loadstore.md R165). -/
theorem effectiveAddress_of_regsUnchanged (h : RegsUnchangedBut [] s t) (rs : RegIdx)
    (imm : BitVec 16) : effectiveAddress t rs imm = effectiveAddress s rs imm := by
  rw [effectiveAddress, effectiveAddress, h rs List.not_mem_nil]

/-! The cache read, alone and after a cache write -/

/-- A cache read changes nothing the host can see (20_memory.md R52). -/
theorem sameVisible_cacheRead (h : cacheRead addr s = .ok (v, t)) : SameVisible s t := by
  obtain ⟨hcfg, hregs, hpc, hrun, hstop, hmem, -⟩ := cacheRead_frame h
  exact ⟨hcfg, hregs, hpc, hrun, hstop, hmem⟩

/-- A cache write succeeds in range only (20_memory.md R54). -/
theorem inRange_of_cacheWrite (hw : cacheWrite addr v s = .ok t) : inRange s.cfg addr = true := by
  cases hr : inRange s.cfg addr with
  | true => rfl
  | false => rw [cacheWrite_outOfRange hr] at hw; cases hw

/-- A Word written is the Word read at any address of its cell: the entry holds it when the cache is
enabled, and memory holds it when not (20_memory.md R59). -/
theorem cacheRead_of_cacheWrite (hw : cacheWrite addr v s = .ok t) (ha : a / 4 = addr / 4) :
    ∃ u, cacheRead a t = .ok (v, u) := by
  have hlt := (inRange_iff s.cfg addr).1 (inRange_of_cacheWrite hw)
  obtain ⟨t', hw', hword, hentry, -, hen, -, -, -, -, -, hcfg⟩ :=
    cacheWriteIsWriteThrough.1 addr v s hlt
  cases hw.symm.trans hw'
  cases he : s.cacheEnabled with
  | true =>
    have hl : lookupKey t.cmap (4 * (a / 4)) = some v := by rw [hentry he, ha, if_pos rfl]
    exact ⟨t, cacheRead_hit ((cachedWord_enabled (hen.trans he)).trans hl)⟩
  | false =>
    have hra : inRange t.cfg a = true := (inRange_iff _ _).2 (by rwa [hcfg, ha])
    have hv : t.wordAt a = v := by rw [hword, if_pos ha]
    exact ⟨_, hv ▸ cacheRead_miss (cachedWord_disabled (hen.trans he)) hra⟩

/-! LW and SW -/

/-- In range LW is a cache read and then the write of the Word read to rt (43_loadstore.md R167). -/
theorem exec_lw_inRange (rt : RegIdx) (hr : inRange s.cfg (effectiveAddress s rs imm) = true) :
    ∃ v u, cacheRead (effectiveAddress s rs imm) s = .ok (v, u) ∧
      exec (.lw rs rt imm) s = .next (u.setReg rt v) := by
  obtain ⟨v, u, hu⟩ := cacheRead_ok_of_inRange hr
  exact ⟨v, u, hu, execLw_inRange hr hu⟩

/-- In a state of the invariant LW loads the memory Word, a hit's included (20_memory.md R60). -/
theorem StateInv.exec_lw_wordAt (hi : StateInv s) (rt : RegIdx)
    (hr : inRange s.cfg (effectiveAddress s rs imm) = true) :
    ∃ t, Machine.exec (.lw rs rt imm) s = .next t ∧
      t.reg rt = s.wordAt (effectiveAddress s rs imm) := by
  obtain ⟨v, u, hu, hx⟩ := exec_lw_inRange rt hr
  exact ⟨_, hx, (u.setReg_reg_self rt v).trans (hi.cacheRead hu).2⟩

/-- In range SW is the cache write of rt's Word (43_loadstore.md R169). -/
theorem exec_sw_of_cacheWrite
    (hw : cacheWrite (effectiveAddress s rs imm) (s.reg rt) s = .ok t) :
    exec (.sw rs rt imm) s = .next t := by
  have hr := inRange_of_cacheWrite hw
  cases (cacheWrite_inRange hr).symm.trans hw
  exact execSw_inRange hr

/-! Instructions one after another -/

theorem execAll_cons_of_next {i : Instr} (h : exec i s = .next t) (l : List Instr) :
    execAll (i :: l) s = execAll l t := by
  rw [execAll, h]

theorem SameVisible.refl (s : State) : SameVisible s s := ⟨rfl, rfl, rfl, rfl, rfl, rfl⟩

theorem SameVisible.trans {u : State} (h : SameVisible s t) (h' : SameVisible t u) :
    SameVisible s u :=
  ⟨h'.cfg.trans h.cfg, h'.regs.trans h.regs, h'.pc.trans h.pc, h'.running.trans h.running,
    h'.stopCause.trans h.stopCause, h'.mem.trans h.mem⟩

/-- CACHE instructions of any codes lead to a state of the invariant that the host cannot tell from
the first, and what comes after them runs from there (20_memory.md R60). -/
theorem StateInv.execAll_caches (hi : StateInv s) (codes : List (BitVec 5)) (l : List Instr) :
    ∃ t, execAll (codes.map .cache ++ l) s = execAll l t ∧ StateInv t ∧ SameVisible s t := by
  induction codes generalizing s with
  | nil => exact ⟨s, rfl, hi, .refl s⟩
  | cons code codes ih =>
    obtain ⟨t, hrun, hit, hvis⟩ := ih (hi.cacheSetState code)
    exact ⟨t, hrun, hit, (sameVisible_cacheSetState code s).trans hvis⟩

/-! The statements -/

/-- Settles O38: the store writes memory and keeps the invariant and the registers, the CACHE
instructions keep the invariant and all that the host can see, and in a state of the invariant LW loads
the memory Word. -/
theorem loadAfterStoreReturnsTheStoredWord : Obligations.LoadAfterStoreReturnsTheStoredWord := by
  intro s rs rt imm rs' rt' imm' codes hi hlt hword
  obtain ⟨t, hw, hmem, -, -, -, -, hregs, -, -, -, hcfg⟩ :=
    cacheWriteIsWriteThrough.1 _ (s.reg rt) s (div_four_lt_memWords hlt)
  obtain ⟨u, hrun, hiu, hvis⟩ := (hi.cacheWrite hw).execAll_caches codes [.lw rs' rt' imm']
  have hea : effectiveAddress u rs' imm' = effectiveAddress s rs' imm' :=
    (hvis.effectiveAddress rs' imm').trans (effectiveAddress_of_regsUnchanged hregs rs' imm')
  have hru : inRange u.cfg (effectiveAddress u rs' imm') = true := by
    rw [inRange_iff, hvis.cfg, hcfg, hea, hword]
    exact div_four_lt_memWords hlt
  obtain ⟨x, hx, hreg⟩ := hiu.exec_lw_wordAt rt' hru
  refine ⟨x, ?run, ?loaded⟩
  case run =>
    rw [execAll_cons_of_next (exec_sw_of_cacheWrite hw), hrun, execAll_cons_of_next hx, execAll]
  case loaded => rw [hreg, hea, hvis.wordAt, hmem, if_pos hword]

/-- Settles O35: in range the execution is a cache read, a hit or a miss, and then the write of its
Word to rt. -/
theorem lwLoadsWhatTheCacheReadGives : Obligations.LwLoadsWhatTheCacheReadGives := by
  refine ⟨fun b w rs rt imm ho hrs hrt himm => ?decoded, ?executed, ?fault⟩
  case decoded => rw [decode_lw ho, rsField_eq hrs, rtField_eq hrt, imm16Field_eq himm]
  case executed =>
    rintro rs rt imm s _ rfl hlt
    have hr := (inRange_iff_lt_memBytes _ _).2 hlt
    obtain ⟨v, u, hu, hx⟩ := exec_lw_inRange rt hr
    have hvis := sameVisible_cacheRead hu
    obtain ⟨-, -, -, -, -, -, hen⟩ := cacheRead_frame hu
    obtain ⟨hregs, -⟩ := setReg_frame rt v u
    refine ⟨_, hx, fun v' hhit => ?hit, fun hmiss => ?miss,
      fun q hq => (hregs q hq).trans (hvis.reg q), hvis.pc, hvis.wordAt, hen, hvis.running,
      hvis.stopCause, hvis.cfg⟩
    case hit =>
      cases (cacheRead_hit hhit).symm.trans hu
      exact ⟨State.setReg_reg_self .., rfl, rfl⟩
    case miss =>
      cases (cacheRead_miss hmiss hr).symm.trans hu
      refine ⟨State.setReg_reg_self .., cacheFill_busEvents, fun hdis => ?disabled,
        fun hon => cacheFill_lookup (s := s.logEvent _) hon⟩
      case disabled => rw [State.setReg_cmap, cacheFill_disabled (s := s.logEvent _) hdis]; rfl
  case fault =>
    rintro rs rt imm s _ rfl hge
    exact execLw_outOfRange (inRange_eq_false_of_memBytes_le hge)

/-- Settles O37: in range the execution is the cache write of rt's Word, and the cache's write-through
law says what that does. -/
theorem swStoresTheWord : Obligations.SwStoresTheWord := by
  refine ⟨fun b w rs rt imm ho hrs hrt himm => ?decoded, fun s rs imm => rfl, ?executed, ?fault⟩
  case decoded => rw [decode_sw ho, rsField_eq hrs, rtField_eq hrt, imm16Field_eq himm]
  case executed =>
    rintro rs rt imm s _ rfl hlt
    obtain ⟨t, hw, hword, hentry, hmap, hen, hev, hregs, hpc, hrun⟩ :=
      cacheWriteIsWriteThrough.1 _ (s.reg rt) s (div_four_lt_memWords hlt)
    exact ⟨t, exec_sw_of_cacheWrite hw, fun a ha => (hword a).trans (if_pos ha),
      fun a ha => (hword a).trans (if_neg ha), hev, hmap, hentry,
      fun a ha => cacheRead_of_cacheWrite hw ha, hregs, hpc, hen, hrun⟩
  case fault =>
    rintro rs rt imm s _ rfl hge
    exact execSw_outOfRange (inRange_eq_false_of_memBytes_le hge)

end Sys2Proof.Machine
end

-- System instructions (44_system.md R180 to R190)
section
/-! PROOFS. CACHE, HALT and the no-op of an unrecognised opcode as 44_system.md R180 to R190 state
them. The laws of the code field, of the no-op's decoding, of CACHE by its code and of a read after a
clear come first, then the statements. -/

namespace Sys2Proof.Encoding

variable {b : BneOpcode} {w : Word}

theorem code5Field_eq {code : BitVec 5} (h : code.toNat = bits w 4 0) : code5Field w = code := by
  rw [code5Field, ← h, BitVec.ofNat_toNat, BitVec.setWidth_eq]

/-- An opcode of no row is the unknown-opcode no-op (30_encoding.md R94). -/
theorem decode_unknownOpcode
    (ho : bits w 31 26 ∉ [0x00, 0x02, 0x03, 0x08, b.value, 0x23, 0x2B, 0x3A, 0x3F]) :
    decode b w = .error (.unknownOpcode (bits w 31 26)) := by
  simp only [List.mem_cons, List.not_mem_nil, or_false, not_or] at ho
  simp [decode, ho]

end Sys2Proof.Encoding

namespace Sys2Proof.Machine

open Sys2Proof.Encoding

variable {s : State} {code : BitVec 5} {addr : Nat}

/-! CACHE by its code (20_memory.md R55) -/

theorem cacheSetState_zero (h : code.toNat = 0) (s : State) :
    cacheSetState code s = (s.setCacheEnabled false).setCmap [] := by
  simp [cacheSetState, h]

theorem cacheSetState_one (h : code.toNat = 1) (s : State) :
    cacheSetState code s = s.setCacheEnabled true := by
  simp [cacheSetState, h]

theorem cacheSetState_two (h : code.toNat = 2) (s : State) :
    cacheSetState code s = s.setCmap [] := by
  simp [cacheSetState, h]

theorem cacheSetState_of_three_le (h : 3 ≤ code.toNat) (s : State) : cacheSetState code s = s := by
  obtain ⟨h', -⟩ | ⟨h', -⟩ | ⟨h', -⟩ | ⟨-, hs⟩ := cacheSetState_cases code s
  case inr.inr.inr => exact hs
  all_goals omega

/-- Codes 0 and 2 are the two that clear the mapping. -/
theorem cacheSetState_cmap_of_clear (h : code.toNat = 0 ∨ code.toNat = 2) (s : State) :
    (cacheSetState code s).cmap = [] := by
  obtain h | h := h
  · rw [cacheSetState_zero h, State.setCmap_cmap]
  · rw [cacheSetState_two h, State.setCmap_cmap]

theorem setCacheEnabled_eq_self {b : Bool} (h : s.cacheEnabled = b) : s.setCacheEnabled b = s := by
  subst h; rfl

theorem setCmap_eq_self {m : CacheMap} (h : s.cmap = m) : s.setCmap m = s := by
  subst h; rfl

/-- A clear of a disabled and empty cache changes nothing (44_system.md R184). -/
theorem cacheSetState_eq_self_of_clear (hdis : s.cacheEnabled = false) (hempty : s.cmap = [])
    (h : code.toNat = 0 ∨ code.toNat = 2) : cacheSetState code s = s := by
  obtain h | h := h
  · rw [cacheSetState_zero h, setCacheEnabled_eq_self hdis, setCmap_eq_self hempty]
  · rw [cacheSetState_two h, setCmap_eq_self hempty]

/-- In the terms of the claims: CACHE writes nothing outside the cache controller. -/
theorem cacheSetState_unchanged (code : BitVec 5) (s : State) :
    RegsUnchangedBut [] s (cacheSetState code s) ∧ (cacheSetState code s).pc = s.pc ∧
      MemoryUnchanged s (cacheSetState code s) ∧ NoBusEvent s (cacheSetState code s) ∧
      RunUnchanged s (cacheSetState code s) := by
  have hvis := sameVisible_cacheSetState code s
  obtain ⟨-, -, -, -, -, -, hbus⟩ := cacheSetState_frame code s
  exact ⟨fun q _ => hvis.reg q, hvis.pc, hvis.wordAt, hbus, hvis.running, hvis.stopCause, hvis.cfg⟩

/-! The read of an empty cache -/

/-- With an empty mapping a read in range misses and is served by the bus (20_memory.md R52). -/
theorem cacheRead_of_cmap_nil (hempty : s.cmap = []) (hr : inRange s.cfg addr = true) :
    ∃ u, cacheRead addr s = .ok (s.wordAt addr, u) ∧
      u.busEvents = s.busEvents ++ [.rd (addr / 4)] := by
  have hmiss : cachedWord addr s = none :=
    cachedWord_eq_none_iff.2 fun _ => by rw [hempty, lookupKey]
  exact ⟨_, cacheRead_miss hmiss hr, cacheFill_busEvents⟩

/-! The statements -/

/-- Settles O17: the Word decodes to the unknown-opcode no-op, whose step ends in the state after
the fetch. -/
theorem unknownOpcodeIsANoOp : Obligations.UnknownOpcodeIsANoOp := by
  intro s w s1 hrun hin hf ho
  exact ⟨step_of_noOp hrun hin hf (decode_unknownOpcode ho), fetched_of_fetch hf⟩

/-- Settles O50: the execution is the controller's operation for the code, and after a clear the
mapping is empty, so that a read goes to the bus. -/
theorem cacheSetsTheControllerByItsCode : Obligations.CacheSetsTheControllerByItsCode := by
  refine ⟨fun b w code ho hcode => ?decoded, fun code s => ?executed⟩
  case decoded => rw [decode_cache ho, code5Field_eq hcode]
  case executed =>
    obtain ⟨hregs, hpc, hmem, hbus, hrun, hstop, hcfg⟩ := cacheSetState_unchanged code s
    refine ⟨cacheSetState code s, rfl, fun h => ?disable, fun h => ?enable, fun h => ?clear,
      fun h => cacheSetState_of_three_le h s, cacheSetState_eq_self_of_clear,
      fun h a ha => ?readAfterClear, hregs, hpc, hmem, hbus, hrun, hstop, hcfg⟩
    case disable => rw [cacheSetState_zero h]; exact ⟨rfl, rfl⟩
    case enable => rw [cacheSetState_one h]; exact ⟨rfl, rfl⟩
    case clear => rw [cacheSetState_two h]; exact ⟨rfl, rfl⟩
    case readAfterClear =>
      have hr : inRange (cacheSetState code s).cfg a = true :=
        (inRange_iff_lt_memBytes _ _).2 (by rwa [hcfg])
      obtain ⟨u, hu, hev⟩ := cacheRead_of_cmap_nil (cacheSetState_cmap_of_clear h s) hr
      exact ⟨u, hmem a ▸ hu, hev.trans (by rw [hbus])⟩

/-- Settles O52: the execution is a stop by halt, which writes nothing but running and stop_cause,
and a stopped core has no step. -/
theorem haltStopsTheCore : Obligations.HaltStopsTheCore := by
  refine ⟨fun _ _ => decode_halt, fun s => ⟨s.stop .halt, rfl, ⟨rfl, rfl⟩, fun u => ?stuck,
    stop_frame .halt s⟩⟩
  case stuck => rw [step_stopped rfl]; nofun

end Sys2Proof.Machine
end

-- Faults and stops (60_exceptions.md R200 to R202)
section
/-! PROOFS. The events that end a run and the access fault as 60_exceptions.md R201 and R202 state
them. The laws of what an instruction leaves running, of the instructions that fault and of a
running core's step come first, then the statements. -/

namespace Sys2Proof.Machine

variable {s s1 t : State} {i : Instr} {rs rt : RegIdx} {imm : BitVec 16} {w : Word}

/-! What an instruction does to the run -/

/-- HALT is the one instruction that completes and stops the core (60_exceptions.md R201). -/
theorem ExecNext.running_of_ne_halt (hx : ExecNext s i t) (hi : i ≠ .halt) :
    t.running = s.running := by
  cases hx with
  | lw rs rt imm v u hr hu => exact (sameVisible_cacheRead hu).running
  | sw rs rt imm t hr hw => cases (cacheWrite_inRange hr).symm.trans hw; exact cacheFill_running
  | cache code => exact (sameVisible_cacheSetState code s).running
  | halt => exact absurd rfl hi
  | _ => rfl

theorem memBytes_le_of_inRange_eq_false {c : Config} {addr : Nat} (h : inRange c addr = false) :
    c.memBytes ≤ addr :=
  Nat.not_lt.1 fun hlt => Bool.eq_false_iff.1 h ((inRange_iff_lt_memBytes c addr).2 hlt)

/-- An LW or SW outside memory takes the access fault (43_loadstore.md R168, R170). -/
theorem exec_eq_takeAccessFault (hi : i = .lw rs rt imm ∨ i = .sw rs rt imm)
    (hout : s.cfg.memBytes ≤ effectiveAddress s rs imm) :
    exec i s = takeAccessFault (effectiveAddress s rs imm) s := by
  have hr := inRange_eq_false_of_memBytes_le hout
  obtain rfl | rfl := hi
  · exact execLw_outOfRange hr
  · exact execSw_outOfRange hr

/-- Every fault of an instruction is the access fault of an LW or SW outside memory. -/
theorem exec_fault_cases {f : Fault} (h : exec i s = .fault f) :
    ∃ rs rt imm, (i = .lw rs rt imm ∨ i = .sw rs rt imm) ∧
      s.cfg.memBytes ≤ effectiveAddress s rs imm ∧
      f = .accessFault (effectiveAddress s rs imm) (s.stop .accessFault) := by
  obtain ⟨t, hx⟩ | ⟨rs, rt, imm, hi, hr, hx⟩ := exec_cases i s
  · cases h.symm.trans hx
  · cases h.symm.trans hx
    exact ⟨rs, rt, imm, hi, memBytes_le_of_inRange_eq_false hr, rfl⟩

theorem exec_ne_refused (i : Instr) (s : State) (r : Refusal) : exec i s ≠ .refused r := by
  obtain ⟨t, hx⟩ | ⟨rs, rt, imm, -, -, hx⟩ := exec_cases i s
  · rw [hx]; nofun
  · rw [hx]; nofun

/-! The step of a running core -/

theorem fetch_running (hf : fetch s = .ok (w, s1)) : s1.running = s.running := by
  obtain ⟨hrun, -⟩ := (fetched_of_fetch hf).run
  exact hrun

/-- A running core makes the guard's stop, or fetches a Word, which is a no-op or an instruction
(40_fetch_step.md R110). -/
theorem step_cases_of_running (hrun : s.running = true) :
    (s.cfg.memBytes ≤ s.pc.toNat ∧ step s = .next (s.stop .pcOutOfRange)) ∨
    ∃ w s1, fetch s = .ok (w, s1) ∧
      ((∃ n, decode s.cfg.bneOpcode w = .error n ∧ step s = .next s1) ∨
        ∃ i, decode s.cfg.bneOpcode w = .ok i ∧ step s = exec i s1) := by
  by_cases hp : s.pc.toNat < s.cfg.memBytes
  case neg => exact .inl ⟨Nat.not_lt.1 hp, step_pcOutside hrun hp⟩
  case pos =>
    obtain ⟨w, s1, hf⟩ := fetch_ok ((pcInRange_iff s).2 hp)
    refine .inr ⟨w, s1, hf, ?_⟩
    cases hd : decode s.cfg.bneOpcode w with
    | error n => exact .inl ⟨n, rfl, step_of_noOp hrun hp hf hd⟩
    | ok i => exact .inr ⟨i, rfl, step_of_instr hrun hp hf hd⟩

/-- A step whose next state is stopped was the guard's stop or ran HALT (60_exceptions.md R201). -/
theorem step_stop_cases (hrun : s.running = true) (h : step s = .next t)
    (hstop : t.running = false) :
    (s.cfg.memBytes ≤ s.pc.toNat ∧ t = s.stop .pcOutOfRange) ∨
    ∃ w s1, fetch s = .ok (w, s1) ∧ decode s.cfg.bneOpcode w = .ok .halt ∧ t = s1.stop .halt := by
  obtain ⟨hout, hs⟩ | ⟨w, s1, hf, ⟨n, -, hs⟩ | ⟨i, hd, hs⟩⟩ := step_cases_of_running hrun
  case inl => cases h.symm.trans hs; exact .inl ⟨hout, rfl⟩
  all_goals have hrun1 := (fetch_running hf).trans hrun
  case inr.inl => cases h.symm.trans hs; cases hrun1.symm.trans hstop
  case inr.inr =>
    have hx := execNext_of_exec (hs.symm.trans h)
    by_cases hi : i = .halt
    case neg => cases hstop.symm.trans ((hx.running_of_ne_halt hi).trans hrun1)
    case pos => subst hi; cases hx; exact .inr ⟨w, s1, hf, hd, rfl⟩

/-- The fault of a running core is the access fault of the LW or SW it fetched, taken in the state
after the fetch (60_exceptions.md R201, R202). -/
theorem step_fault_cases {f : Fault} (hrun : s.running = true) (h : step s = .fault f) :
    ∃ w s1 rs rt imm, fetch s = .ok (w, s1) ∧
      (decode s.cfg.bneOpcode w = .ok (.lw rs rt imm) ∨
        decode s.cfg.bneOpcode w = .ok (.sw rs rt imm)) ∧
      s.cfg.memBytes ≤ effectiveAddress s rs imm ∧
      f = .accessFault (effectiveAddress s rs imm) (s1.stop .accessFault) := by
  obtain ⟨-, hs⟩ | ⟨w, s1, hf, ⟨n, -, hs⟩ | ⟨i, hd, hs⟩⟩ := step_cases_of_running hrun
  case inl | inr.inl => cases h.symm.trans hs
  case inr.inr =>
    obtain ⟨rs, rt, imm, hi, hout, hfault⟩ := exec_fault_cases (hs.symm.trans h)
    rw [effectiveAddress_fetch hf] at hout hfault
    rw [fetch_cfg hf] at hout
    have hdi := hi.imp (hd.trans <| congrArg Except.ok ·) (hd.trans <| congrArg Except.ok ·)
    exact ⟨w, s1, rs, rt, imm, hf, hdi, hout, hfault⟩

/-- A step that fetched an LW or SW outside memory takes the access fault in the state after the
fetch (60_exceptions.md R202). -/
theorem step_accessFault (hrun : s.running = true) (hp : s.pc.toNat < s.cfg.memBytes)
    (hf : fetch s = .ok (w, s1))
    (hd : decode s.cfg.bneOpcode w = .ok (.lw rs rt imm) ∨
      decode s.cfg.bneOpcode w = .ok (.sw rs rt imm))
    (hout : s.cfg.memBytes ≤ effectiveAddress s rs imm) :
    step s = .fault (.accessFault (effectiveAddress s rs imm) (s1.stop .accessFault)) := by
  obtain ⟨i, hi, hdi⟩ : ∃ i, (i = .lw rs rt imm ∨ i = .sw rs rt imm) ∧
      decode s.cfg.bneOpcode w = .ok i :=
    hd.elim (fun h => ⟨_, .inl rfl, h⟩) fun h => ⟨_, .inr rfl, h⟩
  rw [← effectiveAddress_fetch hf, ← fetch_cfg hf] at hout
  rw [step_of_instr hrun hp hf hdi, exec_eq_takeAccessFault hi hout, effectiveAddress_fetch hf,
    takeAccessFault]

theorem step_ne_refused (s : State) (r : Refusal) : step s ≠ .refused r := by
  cases hrun : s.running with
  | false => rw [step_stopped hrun]; nofun
  | true =>
    obtain ⟨-, hs⟩ | ⟨w, s1, -, ⟨n, -, hs⟩ | ⟨i, -, hs⟩⟩ := step_cases_of_running hrun
    case inl | inr.inl => rw [hs]; nofun
    case inr.inr => rw [hs]; exact exec_ne_refused i s1 r

/-! The statements -/

/-- Settles O20: a running core stops by the guard or by HALT, faults by an LW or SW outside memory,
is never refused, and with pc in memory always fetches. -/
theorem onlyTheListedEventsEndARun : Obligations.OnlyTheListedEventsEndARun := by
  refine ⟨fun s t hrun hs hstop => ?stop, fun s f hrun hs => ?fault, step_ne_refused,
    fun s _ hp => fetch_ok ((pcInRange_iff s).2 hp)⟩
  case stop =>
    obtain ⟨hout, rfl⟩ | ⟨w, s1, hf, hd, rfl⟩ := step_stop_cases hrun hs hstop
    · exact .inl ⟨hout, rfl⟩
    · exact .inr ⟨w, s1, hf, hd, rfl⟩
  case fault =>
    obtain ⟨w, s1, rs, rt, imm, hf, hd, hout, hfault⟩ := step_fault_cases hrun hs
    exact ⟨w, s1, rs, rt, imm, s1.stop .accessFault, hf, hd, hout, hfault, rfl, rfl⟩

/-- Settles O21: the state left is the stop of the state after the fetch. The fetch changes
pc, the cache and the bus history alone, the stop changes running and stop_cause alone, and a
stopped core has no step. -/
theorem accessFaultLeavesTheStateAfterTheFetch :
    Obligations.AccessFaultLeavesTheStateAfterTheFetch := by
  intro s w s1 rs rt imm hrun hp hf hd hout
  have hfetched := fetched_of_fetch hf
  refine ⟨s1.stop .accessFault, step_accessFault hrun hp hf hd hout, rfl, rfl, hfetched.pc,
    hfetched.regs, hfetched.mem, ⟨rfl, rfl⟩, rfl,
    (s1.stop_cfg _).trans (fetch_cfg hf), fun u => ?final⟩
  case final => rw [step_stopped rfl]; nofun

end Sys2Proof.Machine
end

-- The encoder and the assembler (30_encoding.md R100 to R105)
section
/-! PROOFS. The two round trips between encoder and decoder, and the spec's worked Words. The
encoder on the fields of a Word, format by format, comes first, then the statements. -/

namespace Sys2Proof.Encoding

variable {w : Word}

/-! The encoder on the fields of a Word, by format (30_encoding.md R82 to R87) -/

/-- Format R leaves out bits [10:6]. -/
theorem encR_fields_eq_and {f : Nat} (ho : bits w 31 26 = 0x00) (hf : bits w 5 0 = f) :
    encR f (rdField w) (rsField w) (rtField w) = w &&& 0xFFFFF83F#32 := by
  have hlt : f < 64 := hf ▸ Nat.mod_lt _ (by decide)
  rw [BitVec.toNat_eq, and_canonR, encR_toNat _ _ _ _ hlt]
  simp only [bits, rsField, rtField, rdField, Fin.val_ofNat] at *
  omega

theorem and_fullMask (w : Word) : w &&& 0xFFFFFFFF#32 = w := BitVec.and_allOnes

/-- Format I names every bit. -/
theorem encI_fields_eq {op : Nat} (ho : bits w 31 26 = op) :
    encI op (rtField w) (rsField w) (imm16Field w) = w &&& 0xFFFFFFFF#32 := by
  have hlt : op < 64 := ho ▸ Nat.mod_lt _ (by decide)
  have := w.isLt
  rw [and_fullMask, BitVec.toNat_eq, encI_toNat _ _ _ _ hlt]
  simp only [bits, rsField, rtField, imm16Field, Fin.val_ofNat, BitVec.toNat_ofNat] at *
  omega

/-- Format J names every bit. -/
theorem encJ_fields_eq {op : Nat} (ho : bits w 31 26 = op) :
    encJ op (target26Field w) = w &&& 0xFFFFFFFF#32 := by
  have hlt : op < 64 := ho ▸ Nat.mod_lt _ (by decide)
  have := w.isLt
  rw [and_fullMask, BitVec.toNat_eq, encJ_toNat _ _ hlt]
  simp only [bits, target26Field, BitVec.toNat_ofNat] at *
  omega

/-- CACHE leaves out bits [25:5]. -/
theorem encC_field_eq_and (ho : bits w 31 26 = 0x3A) :
    encC (code5Field w) = w &&& 0xFC00001F#32 := by
  have := w.isLt
  rw [BitVec.toNat_eq, and_canonC, encC_toNat]
  simp only [bits, code5Field, BitVec.toNat_ofNat] at *
  omega

/-- HALT leaves out bits [25:0]. -/
theorem encH_eq_and (ho : bits w 31 26 = 0x3F) : encH = w &&& 0xFC000000#32 :=
  ((and_opcodeMask_eq_iff 0x3F encH_toNat).2 ho).symm

/-! The statements -/

/-- Settles O7: the fields of an encoded Word are the operands, and its opcode and funct those of
the row by which the decoder answers the instruction. -/
theorem decodeOfEncodeIsTheInstruction : Obligations.DecodeOfEncodeIsTheInstruction := by
  intro b i
  cases i with
  | add rs rt rd =>
    obtain ⟨ho, hf, hrs, hrt, hrd⟩ := encR_fields 0x20 rd rs rt (by decide)
    rw [encode, decode_add ho hf, hrs, hrt, hrd]
  | sub rs rt rd =>
    obtain ⟨ho, hf, hrs, hrt, hrd⟩ := encR_fields 0x22 rd rs rt (by decide)
    rw [encode, decode_sub ho hf, hrs, hrt, hrd]
  | slt rs rt rd =>
    obtain ⟨ho, hf, hrs, hrt, hrd⟩ := encR_fields 0x2A rd rs rt (by decide)
    rw [encode, decode_slt ho hf, hrs, hrt, hrd]
  | addi rs rt imm =>
    obtain ⟨ho, hrs, hrt, himm⟩ := encI_fields 0x08 rt rs imm (by decide)
    rw [encode, decode_addi ho, hrs, hrt, himm]
  | bne rs rt imm =>
    obtain ⟨ho, hrs, hrt, himm⟩ := encI_fields b.value rt rs imm b.value_lt
    rw [encode, decode_bne ho, hrs, hrt, himm]
  | j target =>
    obtain ⟨ho, htarget⟩ := encJ_fields 0x02 target (by decide)
    rw [encode, decode_j ho, htarget]
  | jal target =>
    obtain ⟨ho, htarget⟩ := encJ_fields 0x03 target (by decide)
    rw [encode, decode_jal ho, htarget]
  | lw rs rt imm =>
    obtain ⟨ho, hrs, hrt, himm⟩ := encI_fields 0x23 rt rs imm (by decide)
    rw [encode, decode_lw ho, hrs, hrt, himm]
  | sw rs rt imm =>
    obtain ⟨ho, hrs, hrt, himm⟩ := encI_fields 0x2B rt rs imm (by decide)
    rw [encode, decode_sw ho, hrs, hrt, himm]
  | cache code =>
    obtain ⟨ho, hcode⟩ := encC_fields code
    rw [encode, decode_cache ho, hcode]
  | halt => exact decode_halt encH_fields

/-- Settles O8: a decoded Word is the encoder's Word of its own fields but for the bits its format
leaves out. -/
theorem encodeOfDecodeClearsOnlyTheIgnoredBits :
    Obligations.EncodeOfDecodeClearsOnlyTheIgnoredBits := by
  intro b w i hd
  obtain ⟨ho, hf, rfl⟩ | ⟨ho, hf, rfl⟩ | ⟨ho, hf, rfl⟩ | ⟨ho, rfl⟩ | ⟨ho, rfl⟩ | ⟨ho, rfl⟩ |
    ⟨ho, rfl⟩ | ⟨ho, rfl⟩ | ⟨ho, rfl⟩ | ⟨ho, rfl⟩ | ⟨ho, rfl⟩ := decode_cases hd
  -- ADD, SUB and SLT are of format R; ADDI, BNE, LW and SW of format I; J and JAL of format J.
  · exact encR_fields_eq_and ho hf
  · exact encR_fields_eq_and ho hf
  · exact encR_fields_eq_and ho hf
  · exact encI_fields_eq ho
  · exact encI_fields_eq ho
  · exact encJ_fields_eq ho
  · exact encJ_fields_eq ho
  · exact encI_fields_eq ho
  · exact encI_fields_eq ho
  · exact encC_field_eq_and ho
  · exact encH_eq_and ho

/-- Settles O9: the decoder run on each Word. -/
theorem decodeReadsTheSpecsWords : Obligations.DecodeReadsTheSpecsWords := by
  unfold Obligations.DecodeReadsTheSpecsWords
  decide

/-- Settles O10: the assembler run on each line. -/
theorem assemblerGivesTheSpecsWords : Obligations.AssemblerGivesTheSpecsWords :=
  ⟨rfl, rfl, rfl, rfl, rfl⟩

end Sys2Proof.Encoding
end

-- Key lists in canonical form (10_state.md R30 to R32)
section
/-! PROOFS. The lists behind memory and the cache's mapping. Rising keys as a pairwise relation
comes first, then the statements. -/

namespace Sys2Proof.Machine

variable {m m' : Memory} {p : Nat × Word}

/-! Rising keys -/

theorem sortedKeys_iff_pairwise (l : List (Nat × Word)) :
    sortedKeys l = true ↔ l.Pairwise (fun p q => p.1 < q.1) := by
  induction l with
  | nil => simp [sortedKeys]
  | cons p l ih => rw [sortedKeys_cons, List.pairwise_cons, ih]

theorem nodup_of_sortedKeys {l : List (Nat × Word)} (h : sortedKeys l = true) : l.Nodup :=
  ((sortedKeys_iff_pairwise l).1 h).imp (S := (· ≠ ·)) fun hlt he =>
    Nat.ne_of_lt hlt (congrArg Prod.fst he)

theorem Memory.wf_iff (m : Memory) : m.wf = true ↔ sortedKeys m = true ∧ ∀ p ∈ m, p.2 ≠ 0 := by
  simp [Memory.wf]

/-- The pairs of a canonical memory are its cells that do not read 0 (10_state.md R30, R34). -/
theorem Memory.mem_iff_read (h : m.wf = true) : p ∈ m ↔ m.read p.1 = p.2 ∧ p.2 ≠ 0 := by
  obtain ⟨hs, hnonzero⟩ := (Memory.wf_iff m).1 h
  constructor
  case mp =>
    intro hp
    rw [Memory.read, lookupKey_of_mem hs hp]
    exact ⟨rfl, hnonzero p hp⟩
  case mpr =>
    rintro ⟨hr, hne⟩
    rw [Memory.read] at hr
    cases hl : lookupKey m p.1 with
    | none => rw [hl] at hr; exact absurd hr.symm hne
    | some v => rw [hl] at hr; cases hr; exact mem_of_lookupKey hl

/-- Different multiples of 4 are addresses of different Words. -/
theorem nodup_wordIndices {l : List (Nat × Word)} (hs : sortedKeys l = true)
    (h4 : ∀ p ∈ l, p.1 % 4 = 0) : (l.map fun p => p.1 / 4).Nodup := by
  refine List.pairwise_map.2 (((sortedKeys_iff_pairwise l).1 hs).imp_of_mem fun hp hq hlt => ?_)
  have := h4 _ hp
  have := h4 _ hq
  omega

/-! The statements -/

/-- Settles O45: the entries' word indices are different numbers below MEM_WORDS. -/
theorem cacheHoldsAtMostOneEntryPerMemoryWord :
    Obligations.CacheHoldsAtMostOneEntryPerMemoryWord := by
  intro s hi
  have hnodup := nodup_wordIndices hi.cmapSorted fun p hp => (hi.cacheInRange p hp).1
  have hsub : (s.cmap.map fun p => p.1 / 4) ⊆ List.range s.cfg.memWords := by
    intro k hk
    obtain ⟨p, hp, rfl⟩ := List.mem_map.1 hk
    exact List.mem_range.2 ((inRange_iff _ _).1 (hi.cacheInRange p hp).2)
  simpa using (List.subperm_of_subset hnodup hsub).length_le

/-- Settles O46: the two lists hold the same pairs, those of the cells that do not read 0, and
rising keys leave one order. -/
theorem canonicalMemoriesThatReadAlikeAreEqual :
    Obligations.CanonicalMemoriesThatReadAlikeAreEqual := by
  intro m m' hm hm' hread
  obtain ⟨hs, -⟩ := (Memory.wf_iff m).1 hm
  obtain ⟨hs', -⟩ := (Memory.wf_iff m').1 hm'
  have hperm : m.Perm m' := by
    refine (List.perm_ext_iff_of_nodup (nodup_of_sortedKeys hs) (nodup_of_sortedKeys hs')).2
      fun p => ?_
    rw [Memory.mem_iff_read hm, Memory.mem_iff_read hm', hread]
  exact hperm.eq_of_pairwise (fun p q _ _ hpq hqp => absurd hpq (Nat.lt_asymm hqp))
    ((sortedKeys_iff_pairwise m).1 hs) ((sortedKeys_iff_pairwise m').1 hs')

end Sys2Proof.Machine
end

-- Reset, launch and the host (70_reset_and_hazards.md R220 to R231)
section
/-! PROOFS. The reset value, the load and the launch as 70_reset_and_hazards.md R220 to R224 state
them, and what the host may read. The laws of a memory write under the invariant, of the load and of
the launch come first, then the statements. -/

namespace Sys2Proof.Machine

variable {s : State} {m : Memory} {image : List (Nat × Int)} {p : LaunchParams} {k : Nat} {v : Int}

/-! The invariant at reset and under a memory write -/

/-- Reset with legal parameters gives a state of the invariant (10_state.md R32, R34). -/
theorem stateInv_resetWith {c : Config} (hc : c.wf = true) : StateInv (State.resetWith c) := by
  refine ⟨hc, rfl, ?_, rfl, fun _ => rfl, ?_, ?_, rfl, ?_⟩
  all_goals simp

/-- A canonical memory of cells of the array, with which the cache agrees, may replace the
memory. -/
theorem StateInv.setMem (hi : StateInv s) (hwf : m.wf = true)
    (harray : ∀ q ∈ m, q.1 < s.cfg.memWords)
    (hagree : ∀ q ∈ s.cmap, q.2 = m.read (q.1 / 4)) : StateInv (s.setMem m) :=
  ⟨hi.cfgLegal, hwf, harray, hi.cmapSorted, hi.disabledEmpty, hagree, hi.cacheInRange, hi.pcAligned,
    hi.causeMatches⟩

/-! The pairs of an image, stored one after another (70_reset_and_hazards.md R224) -/

theorem ofInt_toNat_of_word (h0 : 0 ≤ v) (hlt : v < 2 ^ 32) :
    ((BitVec.ofInt 32 v).toNat : Int) = v := by
  rw [BitVec.toNat_ofInt]
  omega

theorem foldl_loadPair_wf (image : List (Nat × Int)) (h : m.wf = true) :
    Memory.wf (image.foldl loadPair m) = true := by
  induction image generalizing m with
  | nil => exact h
  | cons q image ih => exact ih (Memory.wf_write _ _ h)

theorem foldl_loadPair_inArray {n : Nat} (himage : ∀ q ∈ image, q.1 < n) (hm : ∀ q ∈ m, q.1 < n) :
    ∀ q ∈ image.foldl loadPair m, q.1 < n := by
  induction image generalizing m with
  | nil => exact hm
  | cons r image ih =>
    obtain ⟨hr, himage⟩ := List.forall_mem_cons.1 himage
    refine ih himage fun q hq => ?_
    obtain hqr | hq := Memory.mem_write hq
    · exact hqr ▸ hr
    · exact hm q hq

/-- A cell the image does not name keeps its Word. -/
theorem foldl_loadPair_read_of_not_named (h : k ∉ image.map Prod.fst) :
    Memory.read (image.foldl loadPair m) k = m.read k := by
  induction image generalizing m with
  | nil => rfl
  | cons q image ih =>
    obtain ⟨hk, htail⟩ := List.ne_and_not_mem_of_not_mem_cons h
    exact (ih htail).trans (Memory.read_write_ne m _ hk)

/-- A cell the image names once gets its value. -/
theorem foldl_loadPair_read_of_mem (hmap : (image.map Prod.fst).Nodup) (h : (k, v) ∈ image) :
    Memory.read (image.foldl loadPair m) k = BitVec.ofInt 32 v := by
  induction image generalizing m with
  | nil => cases h
  | cons q image ih =>
    obtain ⟨hq, htail⟩ := List.nodup_cons.1 hmap
    obtain rfl | h := List.mem_cons.1 h
    · exact (foldl_loadPair_read_of_not_named hq).trans (Memory.read_write_self m _ _)
    · exact ih htail h

theorem not_mem_map_fst_iff : k ∉ image.map Prod.fst ↔ ∀ v, (k, v) ∉ image := by
  simp

/-! The load and the launch -/

theorem imageInRange_iff (c : Config) (image : List (Nat × Int)) :
    imageInRange c image = true ↔ ∀ q ∈ image, q.1 < c.memWords := by
  simp [imageInRange]

theorem imageOfWords_iff (image : List (Nat × Int)) :
    imageOfWords image = true ↔ ∀ q ∈ image, 0 ≤ q.2 ∧ q.2 < 2 ^ 32 := by
  simp [imageOfWords]

theorem imageIsMap_iff (image : List (Nat × Int)) :
    imageIsMap image = true ↔ (image.map Prod.fst).Nodup := by
  simp [imageIsMap]

theorem busLoad_ok (hrange : imageInRange s.cfg image = true) (hwords : imageOfWords image = true)
    (hmap : imageIsMap image = true) :
    busLoad image s = .ok (s.setMem (image.foldl loadPair s.mem)) := by
  simp [busLoad, hrange, hwords, hmap]

/-- A load that is not refused passed the three checks of the image. -/
theorem busLoad_refused_or_checked (image : List (Nat × Int)) (s : State) :
    (∃ r, busLoad image s = .error r) ∨
      imageInRange s.cfg image = true ∧ imageOfWords image = true ∧ imageIsMap image = true := by
  rw [busLoad]
  split
  case isFalse => exact .inl ⟨_, rfl⟩
  case isTrue hrange =>
    split
    case isFalse => exact .inl ⟨_, rfl⟩
    case isTrue hwords =>
      split
      case isFalse => exact .inl ⟨_, rfl⟩
      case isTrue hmap => exact .inr ⟨hrange, hwords, hmap⟩

/-- The checks of a launch (70_reset_and_hazards.md R223). -/
theorem LaunchParams.wf_iff (p : LaunchParams) :
    p.wf = true ↔ p.config.wf = true ∧ p.startPc.toNat % 4 = 0 ∧
      imageInRange p.config p.image = true ∧ imageOfWords p.image = true ∧
      imageIsMap p.image = true := by
  simp [LaunchParams.wf, and_assoc]

/-- The state a well-formed launch starts from (70_reset_and_hazards.md R222, R223). -/
def launchState (p : LaunchParams) : State :=
  ((State.resetWith p.config).setMem (p.image.foldl loadPair [])).setPc p.startPc

theorem launch_ok (h : p.wf = true) : launch p = .ok (launchState p) := by
  obtain ⟨hcfg, hpc, hrange, hwords, hmap⟩ := (LaunchParams.wf_iff p).1 h
  have hload := busLoad_ok (s := State.resetWith p.config) hrange hwords hmap
  simp [launch, hcfg, hpc, hload, launchState]

theorem launch_refused (h : p.wf = false) : ∃ r, launch p = .error r := by
  rw [launch]
  split
  case isFalse => exact ⟨_, rfl⟩
  case isTrue hcfg =>
    split
    case isFalse => exact ⟨_, rfl⟩
    case isTrue hpc =>
      obtain ⟨r, hr⟩ | hchecked := busLoad_refused_or_checked p.image (State.resetWith p.config)
      · exact ⟨r, by rw [hr]⟩
      · cases h.symm.trans ((LaunchParams.wf_iff p).2 ⟨hcfg, hpc, hchecked⟩)

theorem stateInv_launchState (h : p.wf = true) : StateInv (launchState p) := by
  obtain ⟨hcfg, hpc, hrange, -, -⟩ := (LaunchParams.wf_iff p).1 h
  have harray := foldl_loadPair_inArray (m := []) ((imageInRange_iff _ _).1 hrange) nofun
  exact ((stateInv_resetWith hcfg).setMem (foldl_loadPair_wf _ rfl) harray nofun).setPc _ hpc

/-! The host's reading (70_reset_and_hazards.md R229) -/

theorem observe_running (h : s.running = true) : observe s = none := by
  simp [observe, h]

theorem observe_stopped (h : s.running = false) :
    observe s = some ⟨s.regs, s.pc, s.running, s.stopCause, s.mem⟩ := by
  simp [observe, h]

/-! The statements -/

/-- Settles O1: each field as `State.resetWith` writes it. -/
theorem resetGivesEveryFieldItsResetValue : Obligations.ResetGivesEveryFieldItsResetValue :=
  ⟨rfl, fun c => ⟨State.resetWith_reg c, rfl, rfl, rfl, fun a => Memory.read_nil (a / 4), rfl, rfl,
    rfl, rfl, rfl⟩⟩

/-- Settles O2: the default parameters are legal. -/
theorem invariantHoldsAtReset : Obligations.InvariantHoldsAtReset := stateInv_resetWith rfl

/-- Settles O3: a launch that passes the checks loads the image into the empty memory of the reset
state and writes pc; one that fails a check is refused by that check. -/
theorem launchGivesTheLaunchPremises : Obligations.LaunchGivesTheLaunchPremises := by
  refine ⟨fun p hp => ?wellFormed, fun p => launch_refused⟩
  obtain ⟨-, -, -, hwords, hmap⟩ := (LaunchParams.wf_iff p).1 hp
  refine ⟨launchState p, launch_ok hp, stateInv_launchState hp, State.resetWith_reg p.config, rfl,
    rfl, rfl, rfl, rfl, rfl, rfl, ?named, fun a ha => ?notNamed⟩
  case named =>
    rintro k v hkv a rfl
    obtain ⟨h0, hlt⟩ := (imageOfWords_iff _).1 hwords _ hkv
    have hread := foldl_loadPair_read_of_mem (m := []) ((imageIsMap_iff _).1 hmap) hkv
    exact (congrArg (fun w : Word => (w.toNat : Int)) hread).trans (ofInt_toNat_of_word h0 hlt)
  case notNamed =>
    exact foldl_loadPair_read_of_not_named (m := []) (not_mem_map_fst_iff.2 ha)

/-- Settles O4: a load that is not refused passed the checks, which the first clause's pair fails
and the second clause's image passes; then the pairs are stored one after another. -/
theorem busLoadStoresAllPairsOrIsRefused : Obligations.BusLoadStoresAllPairsOrIsRefused := by
  refine ⟨?refused, fun image s hpairs hmap => ?stored⟩
  case refused =>
    rintro image s ⟨k, v, hkv, hbad⟩
    obtain hr | ⟨hrange, hwords, -⟩ := busLoad_refused_or_checked image s
    · exact hr
    · have hk := (imageInRange_iff _ _).1 hrange _ hkv
      have hv := (imageOfWords_iff _).1 hwords _ hkv
      omega
  case stored =>
    refine ⟨image.foldl loadPair s.mem, busLoad_ok ?range ?words ((imageIsMap_iff _).2 hmap),
      fun k v hkv => ?named,
      fun k hk => foldl_loadPair_read_of_not_named (not_mem_map_fst_iff.2 hk)⟩
    case range => exact (imageInRange_iff _ _).2 fun q hq => (hpairs q.1 q.2 hq).1
    case words => exact (imageOfWords_iff _).2 fun q hq => (hpairs q.1 q.2 hq).2
    case named =>
      obtain ⟨-, h0, hlt⟩ := hpairs k v hkv
      rw [foldl_loadPair_read_of_mem hmap hkv, ofInt_toNat_of_word h0 hlt]

/-- Settles O5: the observation is none or made of fields that two such states share. -/
theorem hostObservesOnlyAStoppedCoreAndNotItsCache :
    Obligations.HostObservesOnlyAStoppedCoreAndNotItsCache := by
  refine ⟨fun s => observe_running, fun s hstop => ?stopped, fun s t hvis => ?same⟩
  case stopped => exact ⟨_, observe_stopped hstop, rfl, rfl, hstop, rfl, fun _ => rfl⟩
  case same =>
    cases hrun : s.running with
    | true => rw [observe_running hrun, observe_running (hvis.running.trans hrun)]
    | false =>
      rw [observe_stopped hrun, observe_stopped (hvis.running.trans hrun), hvis.regs, hvis.pc,
        hvis.running, hvis.stopCause, hvis.mem]

end Sys2Proof.Machine
end

-- Alignment and the properties of the cache controller (20_memory.md R44, R49, R59 to R63)
section
/-! PROOFS. The cache controller's properties as 20_memory.md R44, R59, R60 and R63 state them. The
operations at the tag of an address, the entry a read leaves and the frame of a cache write come
first, then the statements. -/

namespace Sys2Proof.Machine

variable {s t : State} {addr : Nat} {v : Word}

/-! The operations at the address with its two low bits cleared (20_memory.md R44, R49) -/

theorem busRead_tag (addr : Nat) (s : State) : busRead (tag addr) s = busRead addr s := by
  rw [busRead, busRead, inRange_tag, tag_div]

theorem busWrite_tag (addr : Nat) (v : Word) (s : State) :
    busWrite (tag addr) v s = busWrite addr v s := by
  rw [busWrite, busWrite, inRange_tag, tag_div]

theorem cachedWord_tag (addr : Nat) (s : State) : cachedWord (tag addr) s = cachedWord addr s := by
  rw [cachedWord, cachedWord, tag_tag]

theorem cacheFill_tag (addr : Nat) (v : Word) (s : State) :
    cacheFill (tag addr) v s = cacheFill addr v s := by
  rw [cacheFill, cacheFill, tag_tag]

theorem cacheRead_tag (addr : Nat) (s : State) : cacheRead (tag addr) s = cacheRead addr s := by
  simp only [cacheRead, cachedWord_tag, busRead_tag, cacheFill_tag]

theorem cacheWrite_tag (addr : Nat) (v : Word) (s : State) :
    cacheWrite (tag addr) v s = cacheWrite addr v s := by
  rw [cacheWrite, cacheWrite, inRange_tag, cacheFill_tag, busWrite_tag]

/-! What a read leaves in the mapping, and what a write leaves alone -/

/-- With the cache enabled the Word read is present after the read, hit or miss
(20_memory.md R52). -/
theorem lookupKey_of_cacheRead (hen : s.cacheEnabled = true) (h : cacheRead addr s = .ok (v, t)) :
    lookupKey t.cmap (tag addr) = some v := by
  obtain ⟨hhit, rfl⟩ | ⟨-, -, -, rfl⟩ := cacheRead_cases h
  case inl => exact (cachedWord_enabled hen).symm.trans hhit
  case inr => exact (cacheFill_lookup (s := s.logEvent _) hen _).trans (if_pos rfl)

/-- A second read hits (20_memory.md R59). -/
theorem cacheRead_again (hen : s.cacheEnabled = true) (h : cacheRead addr s = .ok (v, t)) :
    cacheRead addr t = .ok (v, t) := by
  obtain ⟨-, -, -, -, -, -, hen'⟩ := cacheRead_frame h
  exact cacheRead_hit ((cachedWord_enabled (hen'.trans hen)).trans (lookupKey_of_cacheRead hen h))

/-- A cache write changes memory at its Word, the mapping and the bus history alone
(20_memory.md R54). -/
theorem cacheWrite_frame (hw : cacheWrite addr v s = .ok t) :
    (∀ a, t.wordAt a = if a / 4 = addr / 4 then v else s.wordAt a) ∧
      t.cacheEnabled = s.cacheEnabled ∧ RegsUnchangedBut [] s t ∧ t.pc = s.pc ∧
      RunUnchanged s t := by
  obtain ⟨t', hw', hword, -, -, hen, -, hregs, hpc, hrun⟩ :=
    cacheWriteIsWriteThrough.1 addr v s ((inRange_iff _ _).1 (inRange_of_cacheWrite hw))
  cases hw.symm.trans hw'
  exact ⟨hword, hen, hregs, hpc, hrun⟩

/-! The statements -/

/-- Settles O43: range test, bus and cache use an address only through its tag or its word index. -/
theorem lowAddressBitsAreIgnored : Obligations.LowAddressBitsAreIgnored :=
  fun addr v s => ⟨inRange_tag s.cfg addr, busRead_tag addr s, busWrite_tag addr v s,
    cacheRead_tag addr s, cacheWrite_tag addr v s⟩

/-- Settles O44: an enabled cache holds the Word after its read, code 0 clears the mapping, and a
written Word is read back. -/
theorem secondReadHitsAndDisablingClears : Obligations.SecondReadHitsAndDisablingClears := by
  obtain ⟨-, hmiss, -, -⟩ := cacheReadHitsMissesOrFails
  refine ⟨fun addr s hen habsent hlt => ?firstRead, fun addr s v t => cacheRead_again,
    fun addr s hlt => ?afterDisable, fun addr v s t hw => cacheRead_of_cacheWrite hw rfl⟩
  case firstRead =>
    obtain ⟨t, hread, -, hev, -⟩ := hmiss addr s hen habsent hlt
    exact ⟨_, t, hread, hev, cacheRead_again hen hread⟩
  case afterDisable =>
    have hempty : (cacheSetState 0 s).cmap = [] := cacheSetState_cmap_of_clear (.inl rfl) s
    exact ⟨hempty, _, cacheRead_of_cmap_nil hempty ((inRange_iff _ _).2 hlt)⟩

/-- Settles O36: a hit's Word is the memory Word by the invariant, a miss's by the bus. -/
theorem lwLoadsTheMemoryWord : Obligations.LwLoadsTheMemoryWord :=
  fun _ rt _ _ hi hlt => hi.exec_lw_wordAt rt ((inRange_iff_lt_memBytes _ _).2 hlt)

/-- Settles O39: the store leaves pc and the run alone, so that the next fetch is a cache read of
the Word just written. -/
theorem storeIsSeenByTheNextFetch : Obligations.StoreIsSeenByTheNextFetch := by
  intro s t rs rt imm hx hrun hlt hsame
  cases execNext_of_exec hx with
  | sw _ _ _ _ hr hw =>
    obtain ⟨-, -, -, hpc, hrun', -, hcfg⟩ := cacheWrite_frame hw
    obtain ⟨u, hu⟩ := cacheRead_of_cacheWrite hw (a := t.pc.toNat) (by rw [hpc, hsame])
    have hf := fetch_of_cacheRead hu
    have hin : pcInRange t = true := (pcInRange_iff t).2 (by rwa [hpc, hcfg])
    exact ⟨_, hf, step_fetched (hrun'.trans hrun) hin hf⟩

end Sys2Proof.Machine
end

-- What a step can change (10_state.md R23 to R27, 40_fetch_step.md R117, R118)
section
/-! PROOFS. What a step may write, piece of state by piece of state. What a completed instruction
writes and what a step that answers a next state can be come first, then the statements. -/

namespace Sys2Proof.Machine

variable {s s1 t : State} {i : Instr} {w : Word} {f : Fault}

/-! What a completed instruction writes -/

theorem ExecNext.cfg (hx : ExecNext s i t) : t.cfg = s.cfg := by
  cases hx with
  | lw rs rt imm v u hr hu => exact (sameVisible_cacheRead hu).cfg
  | sw rs rt imm t hr hw =>
    obtain ⟨-, -, -, -, -, -, hcfg⟩ := cacheWrite_frame hw
    exact hcfg
  | cache code => exact (sameVisible_cacheSetState code s).cfg
  | _ => rfl

/-- An instruction writes at most its destination register (10_state.md R23). -/
theorem ExecNext.regs (hx : ExecNext s i t) : RegsUnchangedBut (destRegs i) s t := by
  intro q hq
  cases hx with
  | add | sub | slt | addi => exact s.setReg_reg_ne _ (List.mem_singleton.not.1 hq)
  | jal target => exact s.setReg_reg_ne _ (List.mem_singleton.not.1 hq)
  | lw rs rt imm v u hr hu =>
    exact (u.setReg_reg_ne v (List.mem_singleton.not.1 hq)).trans ((sameVisible_cacheRead hu).reg q)
  | sw rs rt imm t hr hw =>
    obtain ⟨-, -, hregs, -, -⟩ := cacheWrite_frame hw
    exact hregs q hq
  | cache code => exact (sameVisible_cacheSetState code s).reg q
  | bneTaken | bneNotTaken | j | halt => rfl

/-- SW is the one instruction that writes memory, at its effective address (10_state.md R30). -/
theorem ExecNext.wordAt (hx : ExecNext s i t) (a : Nat) : t.wordAt a = s.wordAt a ∨
    ∃ rs rt imm, i = .sw rs rt imm ∧ a / 4 = effectiveAddress s rs imm / 4 ∧
      t.wordAt a = s.reg rt := by
  cases hx with
  | lw rs rt imm v u hr hu => exact .inl ((sameVisible_cacheRead hu).wordAt a)
  | sw rs rt imm t hr hw =>
    obtain ⟨hword, -⟩ := cacheWrite_frame hw
    by_cases ha : a / 4 = effectiveAddress s rs imm / 4
    · exact .inr ⟨rs, rt, imm, rfl, ha, (hword a).trans (if_pos ha)⟩
    · exact .inl ((hword a).trans (if_neg ha))
  | cache code => exact .inl ((sameVisible_cacheSetState code s).wordAt a)
  | _ => exact .inl rfl

/-- CACHE is the one instruction that writes the enable flag, by code 0 or 1 (10_state.md R27). -/
theorem ExecNext.cacheEnabled (hx : ExecNext s i t) : t.cacheEnabled = s.cacheEnabled ∨
    ∃ code, i = .cache code ∧
      (code = 0 ∧ t.cacheEnabled = false ∨ code = 1 ∧ t.cacheEnabled = true) := by
  cases hx with
  | lw rs rt imm v u hr hu =>
    obtain ⟨-, -, -, -, -, -, hen⟩ := cacheRead_frame hu
    exact .inl hen
  | sw rs rt imm t hr hw =>
    obtain ⟨-, hen, -⟩ := cacheWrite_frame hw
    exact .inl hen
  | cache code =>
    obtain ⟨hcode, hs⟩ | ⟨hcode, hs⟩ | ⟨-, hs⟩ | ⟨-, hs⟩ := cacheSetState_cases code s
    · exact .inr ⟨code, rfl, .inl ⟨BitVec.eq_of_toNat_eq hcode, by rw [hs]; rfl⟩⟩
    · exact .inr ⟨code, rfl, .inr ⟨BitVec.eq_of_toNat_eq hcode, by rw [hs]; rfl⟩⟩
    · exact .inl (by rw [hs]; rfl)
    · exact .inl (by rw [hs])
  | _ => exact .inl rfl

/-- The pc that a completed instruction leaves (42_control.md R150 to R155). -/
def nextPc (i : Instr) (s : State) : Word :=
  match i with
  | .bne rs rt imm => bnePc rs rt imm s
  | .j target => jumpTarget target
  | .jal target => jumpTarget target
  | _ => s.pc

theorem ExecNext.pc (hx : ExecNext s i t) : t.pc = nextPc i s := by
  cases hx with
  | bneTaken rs rt imm h => exact (bnePc_of_ne h).symm
  | bneNotTaken rs rt imm h => exact (bnePc_of_eq h).symm
  | lw rs rt imm v u hr hu => exact (sameVisible_cacheRead hu).pc
  | sw rs rt imm t hr hw =>
    obtain ⟨-, -, -, hpc, -⟩ := cacheWrite_frame hw
    exact hpc
  | cache code => exact (sameVisible_cacheSetState code s).pc
  | _ => rfl

/-- An instruction other than J and JAL goes on at pc or branches forward (42_control.md R152). -/
theorem nextPc_cases (hj : ∀ target, i ≠ .j target) (hjal : ∀ target, i ≠ .jal target) (s : State) :
    nextPc i s = s.pc ∨ ∃ imm, nextPc i s = branchTarget s.pc imm := by
  cases i with
  | bne rs rt imm =>
    by_cases h : s.reg rs = s.reg rt
    · exact .inl (bnePc_of_eq h)
    · exact .inr ⟨imm, bnePc_of_ne h⟩
  | j target => exact absurd rfl (hj target)
  | jal target => exact absurd rfl (hjal target)
  | _ => exact .inl rfl

/-! What a step can be -/

/-- A step that answers a next state is the guard's stop, a no-op, or an instruction completed in
the state after the fetch (40_fetch_step.md R110). -/
theorem step_next_cases (h : step s = .next t) :
    (s.cfg.memBytes ≤ s.pc.toNat ∧ t = s.stop .pcOutOfRange) ∨
    ∃ w s1, fetch s = .ok (w, s1) ∧
      ((∃ n, decode s.cfg.bneOpcode w = .error n ∧ t = s1) ∨
        ∃ i, decode s.cfg.bneOpcode w = .ok i ∧ exec i s1 = .next t) := by
  cases hrun : s.running with
  | false => cases h.symm.trans (step_stopped hrun)
  | true =>
    obtain ⟨hout, hs⟩ | ⟨w, s1, hf, ⟨n, hd, hs⟩ | ⟨i, hd, hs⟩⟩ := step_cases_of_running hrun
    · cases h.symm.trans hs; exact .inl ⟨hout, rfl⟩
    · cases h.symm.trans hs; exact .inr ⟨w, t, hf, .inl ⟨n, hd, rfl⟩⟩
    · exact .inr ⟨w, s1, hf, .inr ⟨i, hd, hs.symm.trans h⟩⟩

/-- With pc in memory and the fetched Word known, the step is a no-op or a completed instruction. -/
theorem step_next_cases_of_fetch (hp : s.pc.toNat < s.cfg.memBytes) (hf : fetch s = .ok (w, s1))
    (h : step s = .next t) :
    (∃ n, decode s.cfg.bneOpcode w = .error n ∧ t = s1) ∨
      ∃ i, decode s.cfg.bneOpcode w = .ok i ∧ exec i s1 = .next t := by
  obtain ⟨hout, -⟩ | ⟨w', s1', hf', hcases⟩ := step_next_cases h
  · exact absurd hp (Nat.not_lt.2 hout)
  · cases hf.symm.trans hf'; exact hcases

/-- The state an access fault leaves is the stop of the state after the fetch
(60_exceptions.md R202). -/
theorem step_accessFault_cases {ea : Nat} {left : State}
    (h : step s = .fault (.accessFault ea left)) :
    ∃ w s1, fetch s = .ok (w, s1) ∧ left = s1.stop .accessFault := by
  cases hrun : s.running with
  | false => cases h.symm.trans (step_stopped hrun)
  | true =>
    obtain ⟨w, s1, rs, rt, imm, hf, -, -, hfault⟩ := step_fault_cases hrun h
    cases hfault
    exact ⟨w, s1, hf, rfl⟩

/-! The statements -/

/-- Settles O11: every fault of a running core is an access fault. -/
theorem onlyAStoppedCoreIsStuck : Obligations.OnlyAStoppedCoreIsStuck := by
  refine fun s => ⟨fun h => ?_, step_stopped⟩
  cases hrun : s.running with
  | false => rfl
  | true =>
    obtain ⟨w, s1, rs, rt, imm, -, -, -, hfault⟩ := step_fault_cases hrun h
    cases hfault

/-- Settles O23: neither the stops nor the fetch nor an instruction writes the parameters. -/
theorem noStepChangesTheParameters : Obligations.NoStepChangesTheParameters := by
  refine fun s => ⟨fun t h => ?next, fun ea left h => ?fault⟩
  case next =>
    obtain ⟨-, rfl⟩ | ⟨w, s1, hf, ⟨n, -, rfl⟩ | ⟨i, -, hx⟩⟩ := step_next_cases h
    · rfl
    · exact fetch_cfg hf
    · exact (execNext_of_exec hx).cfg.trans (fetch_cfg hf)
  case fault =>
    obtain ⟨w, s1, hf, rfl⟩ := step_accessFault_cases h
    exact (s1.stop_cfg _).trans (fetch_cfg hf)

/-- Settles O24: the fetch and the guard's stop write no register, an instruction at most its
destination. -/
theorem stepWritesOnlyTheDestinationRegister :
    Obligations.StepWritesOnlyTheDestinationRegister := by
  refine ⟨fun i => ?one, fun s w s1 t hf hrun h => ?fetched, fun s t hout h => ?guard⟩
  case one =>
    cases i with
    | bne | j | sw | cache | halt => exact Nat.zero_le 1
    | _ => exact Nat.le_refl 1
  case fetched =>
    obtain ⟨-, rfl⟩ | ⟨w', s1', hf', hcases⟩ := step_next_cases h
    · exact ⟨fun _ _ _ _ => rfl, fun _ _ _ _ => rfl⟩
    · cases hf.symm.trans hf'
      have hregs := (fetched_of_fetch hf).regs
      obtain ⟨n, hd, rfl⟩ | ⟨i, hd, hx⟩ := hcases
      · exact ⟨fun _ hd' => (nomatch hd.symm.trans hd'), fun _ _ => hregs⟩
      · refine ⟨fun i' hd' q hq => ?_, fun _ hd' => nomatch hd.symm.trans hd'⟩
        cases hd.symm.trans hd'
        exact ((execNext_of_exec hx).regs q hq).trans (hregs q List.not_mem_nil)
  case guard =>
    cases hrun : s.running with
    | false => cases h.symm.trans (step_stopped hrun)
    | true => cases h.symm.trans (step_pcOutside hrun (Nat.not_lt.2 hout)); exact fun _ _ => rfl

/-- Settles O25: neither the fetch nor the guard's stop writes memory, and of the instructions
only SW does. -/
theorem onlySwChangesMemory : Obligations.OnlySwChangesMemory := by
  intro s t a h hne
  obtain ⟨-, rfl⟩ | ⟨w, s1, hf, ⟨n, -, rfl⟩ | ⟨i, hd, hx⟩⟩ := step_next_cases h
  · exact absurd rfl hne
  · exact absurd ((fetched_of_fetch hf).mem a) hne
  · obtain hsame | ⟨rs, rt, imm, rfl, ha, hv⟩ := (execNext_of_exec hx).wordAt a
    · exact absurd (hsame.trans ((fetched_of_fetch hf).mem a)) hne
    · exact ⟨w, s1, rs, rt, imm, hf, hd, ha.trans (by rw [effectiveAddress_fetch hf]),
        hv.trans ((fetched_of_fetch hf).regs rt List.not_mem_nil)⟩

/-- Settles O26: neither the fetch nor the guard's stop writes the flag, and of the instructions
only CACHE does. -/
theorem onlyCacheWritesTheEnableFlag : Obligations.OnlyCacheWritesTheEnableFlag := by
  intro s t h hne
  obtain ⟨-, rfl⟩ | ⟨w, s1, hf, ⟨n, -, rfl⟩ | ⟨i, hd, hx⟩⟩ := step_next_cases h
  · exact absurd rfl hne
  · exact absurd (fetched_of_fetch hf).enabled hne
  · obtain hsame | ⟨code, rfl, hcode⟩ := (execNext_of_exec hx).cacheEnabled
    · exact absurd (hsame.trans (fetched_of_fetch hf).enabled) hne
    · exact ⟨w, s1, code, hf, hd, hcode⟩

/-- Settles O18: an instruction leaves the pc of `nextPc`, begun at the incremented pc, and HALT
alone stops the core. -/
theorem pcAfterAStepIsTheTablesValue : Obligations.PcAfterAStepIsTheTablesValue := by
  intro s w s1 t hrun hin hf h
  have hfetched := fetched_of_fetch hf
  have hrun1 := (fetch_running hf).trans hrun
  obtain ⟨n, hd, rfl⟩ | ⟨i, hd, hx⟩ := step_next_cases_of_fetch hin hf h
  · rw [hd]
    exact ⟨hfetched.pc, fun hstop => (nomatch hrun1.symm.trans hstop), nofun⟩
  · have hx := execNext_of_exec hx
    rw [hd]
    refine ⟨?pc, fun hstop => ?stopped, fun hhalt => ?halt⟩
    case pc =>
      rw [hx.pc]
      cases i with
      | bne rs rt imm =>
        simp only [nextPc, ← hfetched.regs rs List.not_mem_nil, ← hfetched.regs rt List.not_mem_nil]
        split
        case isTrue heq => rw [bnePc_of_eq heq, hfetched.pc]
        case isFalse hne =>
          rw [bnePc_of_ne hne, branchTarget_toNat, hfetched.pc, Nat.mod_add_mod]
      | j target => exact jumpTarget_toNat target
      | jal target => exact jumpTarget_toNat target
      | _ => exact hfetched.pc
    case stopped =>
      by_contra hi
      have hne : i ≠ .halt := fun he => hi (congrArg Except.ok he)
      cases hstop.symm.trans ((hx.running_of_ne_halt hne).trans hrun1)
    case halt => cases hhalt; cases hx; rfl

/-- Settles O19: the increment stays within the bound, and what is neither J nor JAL leaves the
incremented pc or branches forward from it by at most 4 * 65535. -/
theorem onlyJumpsGoBackwardAndPcDoesNotWrap : Obligations.OnlyJumpsGoBackwardAndPcDoesNotWrap := by
  intro s w s1 t hmem hrun hin halign hf h hj hjal
  have hpc1 := (fetched_of_fetch hf).pc
  have hcfg := fetch_cfg hf
  have hbytes : s.cfg.memBytes = 4 * s.cfg.memWords := rfl
  have hinc : s1.pc.toNat = s.pc.toNat + 4 := by omega
  have hle : s1.pc.toNat ≤ s.cfg.memBytes := by omega
  have htarget : t.pc = s1.pc ∨ ∃ imm, t.pc = branchTarget s1.pc imm := by
    obtain ⟨n, -, rfl⟩ | ⟨i, hd, hx⟩ := step_next_cases_of_fetch hin hf h
    · exact .inl rfl
    · rw [(execNext_of_exec hx).pc]
      exact nextPc_cases (fun target hi => hj target (hi ▸ hd))
        (fun target hi => hjal target (hi ▸ hd)) s1
  refine ⟨hinc, hle, ?_⟩
  obtain hpc | ⟨imm, hpc⟩ := htarget
  · rw [hpc]; omega
  · have := imm.isLt
    rw [hpc, branchTarget_toNat_of_memWords_le (hcfg ▸ hmem) (hcfg ▸ hle)]
    omega

end Sys2Proof.Machine
end

-- The invariant along a step (10_state.md R32, 40_fetch_step.md R116)
section
/-! PROOFS. The step under the invariant: it runs the memory Word at pc and keeps the invariant. The
laws of the fetch under the invariant and of the placed Word come first, then the statements. -/

namespace Sys2Proof.Machine

variable {s s1 t : State} {addr : Nat} {v w : Word}

/-! The fetch and the step under the invariant -/

/-- A fetch keeps the invariant and answers the memory Word at pc (20_memory.md R60). -/
theorem StateInv.fetch (hi : StateInv s) (hf : Machine.fetch s = .ok (w, s1)) :
    StateInv s1 ∧ w = s.wordAt s.pc.toNat := by
  obtain ⟨u, hu, rfl⟩ := fetch_cases hf
  obtain ⟨hiu, hw⟩ := hi.cacheRead hu
  exact ⟨hiu.setPc _ (pcAligned_add4 hi.pcAligned), hw⟩

/-- With pc in memory the fetch succeeds, keeps the invariant and answers the memory Word at pc. -/
theorem StateInv.fetch_ok (hi : StateInv s) (hin : s.pc.toNat < s.cfg.memBytes) :
    ∃ s1, Machine.fetch s = .ok (s.wordAt s.pc.toNat, s1) ∧ StateInv s1 := by
  obtain ⟨w, s1, hf⟩ := Machine.fetch_ok ((pcInRange_iff s).2 hin)
  obtain ⟨hi1, rfl⟩ := hi.fetch hf
  exact ⟨s1, hf, hi1⟩

theorem StateInv.step_next (hi : StateInv s) (h : step s = .next t) : StateInv t := by
  obtain ⟨-, rfl⟩ | ⟨w, s1, hf, ⟨n, -, rfl⟩ | ⟨i, -, hx⟩⟩ := step_next_cases h
  · exact hi.stop _ (by decide)
  all_goals obtain ⟨hi1, -⟩ := hi.fetch hf
  · exact hi1
  · obtain ⟨hnext, -⟩ := hi1.exec
    exact hnext t hx

/-- With the cache enabled the Word fetched is present after the fetch (44_system.md R185). -/
theorem lookupKey_of_fetch (hen : s.cacheEnabled = true) (hf : fetch s = .ok (w, s1)) :
    lookupKey s1.cmap (tag s.pc.toNat) = some w := by
  obtain ⟨u, hu, rfl⟩ := fetch_cases hf
  exact lookupKey_of_cacheRead (t := u) hen hu

theorem tag_of_aligned (h : addr % 4 = 0) : tag addr = addr := by
  unfold tag; omega

/-! The placed Word (log 6) -/

@[simp] theorem tableWord_toNat (w : Word) : tableWord 32 w.toNat = w := by
  rw [tableWord, Nat.mod_eq_of_lt w.isLt, BitVec.ofNat_toNat, BitVec.setWidth_eq]

/-- Placing a Word writes memory, and the mapping only where the Word is present. -/
theorem placeAtPc_cases (w : Word) (s : State) :
    (lookupKey s.cmap (tag s.pc.toNat) = none ∧
      placeAtPc w s = s.setMem (s.mem.write (s.pc.toNat / 4) w)) ∨
    ∃ v, lookupKey s.cmap (tag s.pc.toNat) = some v ∧
      placeAtPc w s = (s.setMem (s.mem.write (s.pc.toNat / 4) w)).setCmap
        (insertKey s.cmap (tag s.pc.toNat) w) := by
  cases hl : lookupKey s.cmap (tag s.pc.toNat) with
  | none => exact .inl ⟨rfl, by simp [placeAtPc, hl]⟩
  | some v => exact .inr ⟨v, rfl, by simp [placeAtPc, hl]⟩

theorem placeAtPc_frame (w : Word) (s : State) : (placeAtPc w s).cfg = s.cfg ∧
    (placeAtPc w s).pc = s.pc ∧ (placeAtPc w s).running = s.running := by
  obtain ⟨-, h⟩ | ⟨v, -, h⟩ := placeAtPc_cases w s
  · rw [h]; exact ⟨rfl, rfl, rfl⟩
  · rw [h]; exact ⟨rfl, rfl, rfl⟩

theorem placeAtPc_wordAt_pc (w : Word) (s : State) : (placeAtPc w s).wordAt s.pc.toNat = w := by
  obtain ⟨-, h⟩ | ⟨v, -, h⟩ := placeAtPc_cases w s
  · rw [h]; exact Memory.read_write_self s.mem _ w
  · rw [h]; exact Memory.read_write_self s.mem _ w

/-- Where the Word at pc is still cached after the placing, it is the placed one. -/
theorem cachedWord_placeAtPc (h : cachedWord s.pc.toNat (placeAtPc w s) = some v) : v = w := by
  rw [cachedWord] at h
  split at h
  case isFalse => cases h
  case isTrue =>
    obtain ⟨hl, hs⟩ | ⟨u, -, hs⟩ := placeAtPc_cases w s <;> rw [hs] at h
    · cases h.symm.trans hl
    · rw [State.setCmap_cmap, lookupKey_insertKey, if_pos rfl] at h
      cases h; rfl

/-- A read that could only hit `w` and would find `w` in memory answers `w`. -/
theorem cacheRead_eq_of (hr : inRange s.cfg addr = true) (hmem : s.wordAt addr = w)
    (hhit : ∀ v, cachedWord addr s = some v → v = w) : ∃ u, cacheRead addr s = .ok (w, u) := by
  cases hc : cachedWord addr s with
  | none => exact ⟨_, hmem ▸ cacheRead_miss hc hr⟩
  | some v => exact ⟨s, hhit v hc ▸ cacheRead_hit hc⟩

/-- The bus history is no part of the invariant. -/
theorem StateInv.of_logEvent {e : BusEvent} (hi : StateInv (s.logEvent e)) : StateInv s :=
  ⟨hi.cfgLegal, hi.memCanonical, hi.memInArray, hi.cmapSorted, hi.disabledEmpty, hi.cacheAgrees,
    hi.cacheInRange, hi.pcAligned, hi.causeMatches⟩

/-- A present Word implies an enabled cache (10_state.md R32). -/
theorem StateInv.cacheEnabled_of_lookupKey (hi : StateInv s) {k : Nat}
    (h : lookupKey s.cmap k = some v) : s.cacheEnabled = true := by
  by_contra hdis
  rw [hi.disabledEmpty (Bool.eq_false_iff.2 hdis)] at h
  cases h

/-- A write to the Word of an absent address touches no cached Word. -/
theorem StateInv.setMem_of_absent (hi : StateInv s) (hr : inRange s.cfg addr = true)
    (habsent : lookupKey s.cmap (tag addr) = none) (v : Word) :
    StateInv (s.setMem (s.mem.write (addr / 4) v)) := by
  refine hi.setMem (Memory.wf_write _ _ hi.memCanonical) (fun q hq => ?array) fun q hq => ?agree
  case array =>
    obtain h | h := Memory.mem_write hq
    · exact h ▸ (inRange_iff _ _).1 hr
    · exact hi.memInArray q h
  case agree =>
    have hne : q.1 / 4 ≠ addr / 4 := by
      intro he
      rw [← (tag_eq_tag_iff _ _).2 he, tag_of_aligned (hi.cacheInRange q hq).1,
        lookupKey_of_mem hi.cmapSorted hq] at habsent
      cases habsent
    rw [Memory.read_write_ne _ _ hne]
    exact hi.cacheAgrees q hq

/-- Where the Word at pc is present, placing is a cache write without its bus event; where it is
absent, no cached Word changes. -/
theorem StateInv.placeAtPc (hi : StateInv s) (hin : s.pc.toNat < s.cfg.memBytes) (w : Word) :
    StateInv (placeAtPc w s) := by
  have hr : inRange s.cfg s.pc.toNat = true := (inRange_iff_lt_memBytes _ _).2 hin
  obtain ⟨habsent, hs⟩ | ⟨v, hpresent, hs⟩ := placeAtPc_cases w s <;> rw [hs]
  · exact hi.setMem_of_absent hr habsent w
  · have hwrite := hi.cacheWrite (cacheWrite_inRange (v := w) hr)
    rw [Machine.cacheFill, if_pos (hi.cacheEnabled_of_lookupKey hpresent)] at hwrite
    exact hwrite.of_logEvent

/-! The statements -/

/-- Settles O22: the fetch keeps the invariant, every instruction keeps it, and so do the stops. -/
theorem everyStepKeepsTheInvariant : Obligations.EveryStepKeepsTheInvariant := by
  refine fun s hi => ⟨fun t => hi.step_next, fun ea left h => ?_⟩
  obtain ⟨w, s1, hf, rfl⟩ := step_accessFault_cases h
  obtain ⟨hi1, -⟩ := hi.fetch hf
  exact hi1.stop _ (by decide)

/-- Settles O13: under the invariant the Word fetched is the memory Word at pc. -/
theorem stepRunsTheInstructionInMemory : Obligations.StepRunsTheInstructionInMemory := by
  intro s hi hrun hin
  obtain ⟨s1, hf, -⟩ := hi.fetch_ok hin
  exact ⟨s1, fetched_of_fetch hf, fun _ hd => step_of_instr hrun hin hf hd,
    fun _ hd => step_of_noOp hrun hin hf hd⟩

/-- Settles O14: after the placing the cache read at pc answers the placed Word, by a hit or from
memory. -/
theorem placedWordIsTheNextOneRun : Obligations.PlacedWordIsTheNextOneRun := by
  intro s w hrun hin
  rw [State.withFetchWord, tableWord_toNat]
  refine ⟨?run, fun hi => hi.placeAtPc hin w⟩
  obtain ⟨hcfg, hpc, hrun'⟩ := placeAtPc_frame w s
  have hin' : pcInRange (placeAtPc w s) = true := (pcInRange_iff _).2 (by rwa [hpc, hcfg])
  obtain ⟨u, hu⟩ := cacheRead_eq_of (inRange_pc hin') (by rw [hpc, placeAtPc_wordAt_pc])
    fun v hv => cachedWord_placeAtPc (hpc ▸ hv)
  exact ⟨_, fetch_of_cacheRead hu, step_fetched (hrun'.trans hrun) hin' (fetch_of_cacheRead hu)⟩

/-- Settles O51: the step is the CACHE operation on the state after the fetch, where the fetched
Word is present if the cache is enabled and the mapping empty if it is not. -/
theorem cacheInstructionsOwnFetchComesFirst : Obligations.CacheInstructionsOwnFetchComesFirst := by
  intro s code hi hrun hin hd
  obtain ⟨s1, hf, hi1⟩ := hi.fetch_ok hin
  have hen := (fetched_of_fetch hf).enabled
  refine ⟨cacheSetState code s1, step_of_instr hrun hin hf hd, fun h => ?disable, fun h => ?clear,
    fun h hdis => ?enable, fun h hon => ?unchanged⟩
  case disable => rw [cacheSetState_zero h]; exact ⟨rfl, rfl⟩
  case clear => rw [cacheSetState_two h]; exact ⟨rfl, hen⟩
  case enable => rw [cacheSetState_one h]; exact ⟨hi1.disabledEmpty (hen.trans hdis), rfl⟩
  case unchanged =>
    have hpresent := lookupKey_of_fetch hon hf
    rwa [tag_of_aligned hi.pcAligned, ← cacheSetState_of_three_le h s1] at hpresent

end Sys2Proof.Machine
end

-- Transparency of the cache (20_memory.md R60, 40_fetch_step.md R120, 44_system.md R186)
section
/-! PROOFS. The cache's transparency as 20_memory.md R60 states it, for a step and for a run, and
the endless loop of 40_fetch_step.md R120. Each operation on two states that differ in cache and
bus events only comes first, then the induction over a run, then the statements. -/

namespace Sys2Proof.Machine

variable {s s1 t t1 : State} {addr : Nat} {v v' w w' : Word} {r r' : Result}

/-! The operations on two such states -/

/-- One Word written to one register of both. -/
theorem SameVisible.setReg_of_eq (h : SameVisible s t) (q : RegIdx) (hv : v' = v) :
    SameVisible (s.setReg q v) (t.setReg q v') :=
  hv ▸ h.setReg q v

/-- The LW or SW of both is in range, or of neither. -/
theorem SameVisible.inRange_effectiveAddress (h : SameVisible s t) (rs : RegIdx) (imm : BitVec 16) :
    inRange t.cfg (Machine.effectiveAddress t rs imm) =
      inRange s.cfg (Machine.effectiveAddress s rs imm) := by
  rw [h.cfg, h.effectiveAddress]

theorem SameVisible.symm (h : SameVisible s t) : SameVisible t s :=
  ⟨h.cfg.symm, h.regs.symm, h.pc.symm, h.running.symm, h.stopCause.symm, h.mem.symm⟩

/-- One Word written to one address of both: memory is written alike, whatever the mappings do. -/
theorem SameVisible.cacheWrite (h : SameVisible s t) (hs : Machine.cacheWrite addr v s = .ok s1)
    (ht : Machine.cacheWrite addr v t = .ok t1) : SameVisible s1 t1 := by
  cases (cacheWrite_inRange (inRange_of_cacheWrite hs)).symm.trans hs
  cases (cacheWrite_inRange (inRange_of_cacheWrite ht)).symm.trans ht
  refine ⟨?_, ?_, ?_, ?_, ?_, ?_⟩
  all_goals simp [h.cfg, h.regs, h.pc, h.running, h.stopCause, h.mem]

theorem SameVisible.cacheSetState (h : SameVisible s t) (code : BitVec 5) :
    SameVisible (Machine.cacheSetState code s) (Machine.cacheSetState code t) :=
  ((sameVisible_cacheSetState code s).symm.trans h).trans (sameVisible_cacheSetState code t)

/-- The fetches of both answer one Word and leave two such states. -/
theorem SameVisible.fetch (h : SameVisible s t) (his : StateInv s) (hit : StateInv t)
    (hs : Machine.fetch s = .ok (w, s1)) (ht : Machine.fetch t = .ok (w', t1)) :
    w' = w ∧ SameVisible s1 t1 := by
  obtain ⟨u, hu, rfl⟩ := fetch_cases hs
  obtain ⟨u', hu', rfl⟩ := fetch_cases ht
  rw [h.pc] at hu' ⊢
  obtain ⟨hw, hvis⟩ := h.cacheRead his hit hu hu'
  exact ⟨hw, hvis.setPc _⟩

theorem SameVisible.takeAccessFault (h : SameVisible s t) (ea : Nat) :
    SameVisibleOutcome (Machine.takeAccessFault ea s) (Machine.takeAccessFault ea t) :=
  ⟨rfl, h.stop _⟩

theorem SameVisible.execBne (h : SameVisible s t) (rs rt : RegIdx) (imm : BitVec 16) :
    SameVisibleOutcome (exec (.bne rs rt imm) s) (exec (.bne rs rt imm) t) := by
  have hpc : bnePc rs rt imm t = bnePc rs rt imm s := by
    rw [bnePc, bnePc, h.reg, h.reg, h.pc]
  rw [exec_bne_eq_setPc, exec_bne_eq_setPc, hpc]
  exact h.setPc _

/-- The LW of both is in range or not, and loads one Word (20_memory.md R60). -/
theorem SameVisible.execLw (h : SameVisible s t) (his : StateInv s) (hit : StateInv t)
    (rs rt : RegIdx) (imm : BitVec 16) :
    SameVisibleOutcome (Machine.execLw rs rt imm s) (Machine.execLw rs rt imm t) := by
  have hea := h.effectiveAddress rs imm
  have hrange := h.inRange_effectiveAddress rs imm
  cases hr : inRange s.cfg (Machine.effectiveAddress s rs imm) with
  | false =>
    have hr' := hrange.trans hr
    rw [execLw_outOfRange hr, execLw_outOfRange hr', hea]
    exact h.takeAccessFault _
  | true =>
    have hr' := hrange.trans hr
    obtain ⟨v, u, hu⟩ := cacheRead_ok_of_inRange hr
    obtain ⟨v', u', hu'⟩ := cacheRead_ok_of_inRange hr'
    obtain ⟨hv, hvis⟩ := h.cacheRead his hit hu (hea ▸ hu')
    rw [execLw_inRange hr hu, execLw_inRange hr' hu']
    exact hvis.setReg_of_eq rt hv

/-- The SW of both is in range or not, and stores one Word. -/
theorem SameVisible.execSw (h : SameVisible s t) (rs rt : RegIdx) (imm : BitVec 16) :
    SameVisibleOutcome (Machine.execSw rs rt imm s) (Machine.execSw rs rt imm t) := by
  have hea := h.effectiveAddress rs imm
  have hrange := h.inRange_effectiveAddress rs imm
  cases hr : inRange s.cfg (Machine.effectiveAddress s rs imm) with
  | false =>
    have hr' := hrange.trans hr
    rw [execSw_outOfRange hr, execSw_outOfRange hr', hea]
    exact h.takeAccessFault _
  | true =>
    have hr' := hrange.trans hr
    rw [execSw_inRange hr, execSw_inRange hr', hea, h.reg]
    exact h.cacheWrite (cacheWrite_inRange hr) (cacheWrite_inRange (hea ▸ hr'))

/-- Every instruction, executed in both (20_memory.md R60). -/
theorem SameVisible.exec (h : SameVisible s t) (his : StateInv s) (hit : StateInv t) (i : Instr) :
    SameVisibleOutcome (Machine.exec i s) (Machine.exec i t) := by
  cases i with
  | add rs rt rd | sub rs rt rd | slt rs rt rd =>
    exact h.setReg_of_eq rd (by rw [h.reg, h.reg])
  | addi rs rt imm => exact h.setReg_of_eq rt (by rw [h.reg])
  | bne rs rt imm => exact h.execBne rs rt imm
  | j target => exact h.setPc _
  | jal target => exact (h.setReg_of_eq linkReg h.pc).setPc _
  | lw rs rt imm => exact h.execLw his hit rs rt imm
  | sw rs rt imm => exact h.execSw rs rt imm
  | cache code => exact h.cacheSetState code
  | halt => exact h.stop _

/-- The steps of both (20_memory.md R60). -/
theorem SameVisible.step (h : SameVisible s t) (his : StateInv s) (hit : StateInv t) :
    SameVisibleOutcome (Machine.step s) (Machine.step t) := by
  cases hrun : s.running with
  | false =>
    rw [step_stopped hrun, step_stopped (h.running.trans hrun)]
    trivial
  | true =>
    have hrun' := h.running.trans hrun
    by_cases hin : s.pc.toNat < s.cfg.memBytes
    case neg =>
      rw [step_pcOutside hrun hin, step_pcOutside hrun' (by rwa [h.pc, h.cfg])]
      exact h.stop _
    case pos =>
      have hin' : t.pc.toNat < t.cfg.memBytes := by rwa [h.pc, h.cfg]
      obtain ⟨s1, hf, hi1⟩ := his.fetch_ok hin
      obtain ⟨t1, hf', hi1'⟩ := hit.fetch_ok hin'
      obtain ⟨hw, hvis⟩ := h.fetch his hit hf hf'
      rw [hw] at hf'
      cases hd : decode s.cfg.bneOpcode (s.wordAt s.pc.toNat) with
      | error n =>
        rw [step_of_noOp hrun hin hf hd, step_of_noOp hrun' hin' hf' (by rwa [h.cfg])]
        exact hvis
      | ok i =>
        rw [step_of_instr hrun hin hf hd, step_of_instr hrun' hin' hf' (by rwa [h.cfg])]
        exact hvis.exec hi1 hi1' i

/-! Runs -/

/-- Outcomes the host cannot tell apart are of one kind. -/
theorem SameVisibleOutcome.cases (h : SameVisibleOutcome r r') :
    (∃ s t, r = .next s ∧ r' = .next t ∧ SameVisible s t) ∨
    (∃ f f', r = .fault f ∧ r' = .fault f') ∨ ∃ x x', r = .refused x ∧ r' = .refused x' := by
  cases r with
  | next s =>
    cases r' with
    | next t => exact .inl ⟨s, t, rfl, rfl, h⟩
    | fault f' | refused x' => exact h.elim
  | fault f =>
    cases r' with
    | fault f' => exact .inr (.inl ⟨f, f', rfl, rfl⟩)
    | next | refused => cases f <;> exact h.elim
  | refused x =>
    cases r' with
    | refused x' => exact .inr (.inr ⟨x, x', rfl, rfl⟩)
    | next | fault => exact h.elim

/-- The runs of both, by the steps (20_memory.md R60). -/
theorem SameVisible.run (h : SameVisible s t) (his : StateInv s) (hit : StateInv t) (k : Nat) :
    SameVisibleOutcome (Host.Core.run core k s) (Host.Core.run core k t) := by
  induction k generalizing s t with
  | zero => exact h
  | succ k ih =>
    have hstep := h.step his hit
    obtain ⟨s1, t1, hs, ht, hvis⟩ | ⟨f, f', hs, ht⟩ | ⟨x, x', hs, ht⟩ := hstep.cases
    · rw [run_succ_next k hs, run_succ_next k ht]
      exact ih hvis (his.step_next hs) (hit.step_next ht)
    · rw [hs, ht] at hstep
      rw [run_succ_fault k hs, run_succ_fault k ht]
      exact hstep
    · exact absurd hs (step_ne_refused s x)

/-- What every step from a property leads to again holds along a run. -/
theorem run_next_of_step {P : State → Prop} (hstep : ∀ s, P s → ∃ t, step s = .next t ∧ P t)
    (hs : P s) (k : Nat) : ∃ t, Host.Core.run core k s = .next t ∧ P t := by
  induction k generalizing s with
  | zero => exact ⟨s, rfl, hs⟩
  | succ k ih =>
    obtain ⟨t, ht, hPt⟩ := hstep s hs
    rw [run_succ_next k ht]
    exact ih hPt

/-! The jump to itself (40_fetch_step.md R120) -/

/-- J with its own address leads to a state the host cannot tell from the first. -/
theorem step_jumpToItself {target : BitVec 26} (hi : StateInv s) (hrun : s.running = true)
    (hin : s.pc.toNat < s.cfg.memBytes)
    (hd : decode s.cfg.bneOpcode (s.wordAt s.pc.toNat) = .ok (.j target))
    (hself : s.pc.toNat = 4 * target.toNat) : ∃ t, step s = .next t ∧ SameVisible s t := by
  obtain ⟨s1, hf, -⟩ := hi.fetch_ok hin
  obtain ⟨u, hu, rfl⟩ := fetch_cases hf
  have htarget : jumpTarget target = s.pc := by
    rw [BitVec.toNat_eq, jumpTarget_toNat, hself]
  have hvis : SameVisible s (u.setPc s.pc) := (sameVisible_cacheRead hu).setPc s.pc
  exact ⟨_, step_of_instr hrun hin hf hd, htarget ▸ hvis⟩

/-! The statements -/

/-- Settles O47: under the invariant every cache read answers the memory Word, and nothing else
that a step does reads the cache. -/
theorem cacheStateDoesNotAffectAStep : Obligations.CacheStateDoesNotAffectAStep :=
  fun _ _ his hit hvis => hvis.step his hit

/-- Settles O48, by induction on the number of steps. -/
theorem cacheStateDoesNotAffectARun : Obligations.CacheStateDoesNotAffectARun :=
  fun k _ _ his hit hvis => hvis.run his hit k

/-- Settles O49: CACHE leaves a state of the invariant that differs in the cache only. -/
theorem cacheInstructionChangesNoLaterValue : Obligations.CacheInstructionChangesNoLaterValue :=
  fun k s code hi => ⟨cacheSetState code s, rfl,
    (sameVisible_cacheSetState code s).run hi (hi.cacheSetState code) k⟩

/-- Settles O27: every state the host cannot tell from the first jumps to itself again. -/
theorem jumpToItselfLoopsForEver : Obligations.JumpToItselfLoopsForEver := by
  intro s target hi hrun hin hd hself k
  have hstep : ∀ x, StateInv x ∧ SameVisible s x →
      ∃ y, step x = .next y ∧ StateInv y ∧ SameVisible s y := by
    rintro x ⟨hix, hvis⟩
    obtain ⟨y, hy, hxy⟩ := step_jumpToItself hix (hvis.running.trans hrun)
      (by rwa [hvis.pc, hvis.cfg]) (by rwa [hvis.cfg, hvis.pc, hvis.wordAt]) (by rwa [hvis.pc])
    exact ⟨y, hy, hix.step_next hy, hvis.trans hxy⟩
  obtain ⟨t, ht, -, hvis⟩ := run_next_of_step hstep ⟨hi, .refl s⟩ k
  refine ⟨⟨t, ht⟩, fun t' ht' => ?_⟩
  cases ht.symm.trans ht'
  exact hvis

end Sys2Proof.Machine
end

-- The signed comparison (41_alu.md R134)
section
/-! PROOFS. SLT as 41_alu.md R134 states it: the comparison first, then the statement. -/

namespace Sys2Proof.Machine

open Sys2Proof.Encoding

/-! The comparison -/

theorem signedLess_iff (x y : Word) : signedLess x y = true ↔ x.toInt < y.toInt := by
  rw [signedLess, decide_eq_true_eq, signed32_eq_toInt, signed32_eq_toInt]

theorem aluSlt_of_lt {x y : Word} (h : x.toInt < y.toInt) : aluSlt x y = 1 :=
  if_pos ((signedLess_iff x y).2 h)

theorem aluSlt_of_le {x y : Word} (h : y.toInt ≤ x.toInt) : aluSlt x y = 0 :=
  if_neg fun hlt => Int.not_lt.2 h ((signedLess_iff x y).1 hlt)

/-! The statement -/

/-- Settles O30: the execution is the write of the ALU's comparison to rd. -/
theorem sltWritesTheSignedComparison : Obligations.SltWritesTheSignedComparison := by
  refine ⟨fun b w rs rt rd ho hfunct hrs hrt hrd => ?decoded, fun rs rt rd s => ?executed⟩
  case decoded => rw [decode_slt ho hfunct, rsField_eq hrs, rtField_eq hrt, rdField_eq hrd]
  case executed =>
    have hrd := s.setReg_reg_self rd (aluSlt (s.reg rs) (s.reg rt))
    exact ⟨s.setReg rd (aluSlt (s.reg rs) (s.reg rt)), rfl, fun h => hrd.trans (aluSlt_of_lt h),
      fun h => hrd.trans (aluSlt_of_le h), setReg_frame rd _ s⟩

end Sys2Proof.Machine
end
